-- ==== Sys2Proof/Word.lean ====
section
/-! DEFINITION. The word types of the core (spec/00_scope.md R8, R10, R11): every datum is a byte, a 16-bit value,
a 4-bit nibble, or a byte buffer of a fixed length. All values are unsigned (R10). -/

namespace Sys2Proof

/-- An 8-bit bus datum, character code, length register or buffer element (R8: bus data width 8, `CHAR_BITS` 8). -/
abbrev Byte := BitVec 8

/-- A 16-bit value: `CRC_ACC` and the two-byte token fields (R8 `CRC_WIDTH`). -/
abbrev Half := BitVec 16

/-- A nibble (R14): the high nibble of byte `b` is `b[7:4]`, the low nibble is `b[3:0]`. -/
abbrev Nibble := BitVec 4

/-- A 16-byte buffer: `BLK`, `KEY`, `TOK` (R8 `TOKEN_BYTES`, `KEY_BYTES`, `BLK_CAP`). -/
abbrev Block := Vector Byte 16

/-- The 32-character buffer `TXT` (R8 `TXT_CAP`, `OTP_CHARS`). -/
abbrev Text := Vector Byte 32

end Sys2Proof
end

