-- ==== Sys2Proof/Syntax.lean ====
section
/-! DEFINITION. What the host can say to the core: the commands (spec/30_encoding.md R72), the events of the register bus
(spec/20_memory.md R62) and the host-program notation (spec/30_encoding.md R82). -/

namespace Sys2Proof

/-- The commands, one constructor per row of spec/opcode_table.json (R72). R70, R74: a command has no operand fields; its
operands are the registers its rule names. -/
inductive Instr where
  | nop
  | mhEnc
  | mhDec
  | mhValid
  | crcInit
  | crcUpdate
  | crcCheck
  | tokPack
  | tokUnpack
  | tokSeal
  | aesEnc
  | aesDec
  | generate
  | parse
  | keyClr
  deriving DecidableEq, Repr

/-- One event on the core's pins, in bus order (20_memory.md R55, R62; 70_reset_and_hazards.md R241). -/
inductive BusEvent where
  /-- `MemRead(a, 1)` (R12). -/
  | read (a : Byte)
  /-- `MemWrite(a, 1, v)` (R12). -/
  | write (a v : Byte)
  /-- The `WAIT` loop of R82: the host reads `STATUS` again and again until bit 0 reads 0. -/
  | wait
  /-- A bus cycle in which the host starts no transaction. -/
  | idle
  /-- The reset input becomes asserted (R241). -/
  | resetAssert
  /-- The reset input is released (R241). -/
  | resetRelease
  deriving DecidableEq, Repr

/-- One line of the host-program notation (R82). -/
inductive HostLine where
  /-- `WR a, v`. -/
  | wr (a v : Byte)
  /-- `RD a`. The form `RD a -> v` is the same transaction; `v` only states the value the rules give. -/
  | rd (a : Byte)
  /-- `CMD m` for a defined command. -/
  | cmd (i : Instr)
  /-- `CMD 0x0F`: the same write with the opcode byte given as a number (95_test_vectors.md P4). -/
  | cmdByte (op : Byte)
  /-- `WAIT`. -/
  | wait
  /-- `WRN a, b0 b1 ... bn-1`. -/
  | wrn (a : Byte) (bytes : List Byte)
  /-- `WRS a, "text"`. -/
  | wrs (a : Byte) (text : String)
  /-- `LOADKEY k0 .. k15`. -/
  | loadKey (k : List Byte)
  deriving DecidableEq, Repr

end Sys2Proof
end

