-- ==== Sys2Proof/WellFormed.lean ====
section
/-! DEFINITION. Which terms of the model's input language denote something the spec defines. -/

namespace Sys2Proof

/-- Every command is well formed: R70 gives it no register field, no immediate and no mode bit that could be out of range. -/
def Instr.wellFormed (_ : Instr) : Bool := true

/-- A line of the host-program notation (30_encoding.md R82) is well formed when every transaction it expands to has an
address of the 256-byte register space (20_memory.md R50), a string holds ASCII characters only (R75, R82), and a key has
its 16 bytes. -/
def HostLine.wellFormed : HostLine → Bool
  | .wr _ _ => true
  | .rd _ => true
  | .cmd i => i.wellFormed
  | .cmdByte _ => true
  | .wait => true
  | .wrn a bytes => decide (a.toNat + bytes.length ≤ 256)
  | .wrs a text => text.toList.all (fun c => decide (c.toNat < 128)) && decide (a.toNat + text.toList.length ≤ 256)
  | .loadKey k => decide (k.length = 16)

end Sys2Proof
end

