-- ==== Sys2Proof/Decode.lean ====
section
/-! DEFINITION. The command encoding (spec/30_encoding.md R70, R72, R73): one byte, selected by exact match on all eight
bits. The encoder stands after the decoder and is written from the same table of the spec. -/

namespace Sys2Proof

/-- Why a byte sequence names no command. -/
inductive DecodeError where
  /-- R73: an opcode 0x0F..0xFF. The core accepts it and completes it with `IllegalCommand` (45_control.md R202). -/
  | illegalCommand (op : Byte)
  /-- There is no byte to read. -/
  | noByte
  deriving DecidableEq, Repr

/-- A row of the opcode map: the command is selected when `op &&& mask = pattern`. -/
structure OpcodeRow where
  mask : Byte
  pattern : Byte
  instr : Instr
  deriving DecidableEq, Repr

/-- The opcode map of R72 (spec/opcode_table.json). R70: every bit of the byte is significant. -/
def opcodeTable : List OpcodeRow :=
  [ ⟨0xFF, 0x00, .nop⟩,
    ⟨0xFF, 0x01, .mhEnc⟩,
    ⟨0xFF, 0x02, .mhDec⟩,
    ⟨0xFF, 0x03, .mhValid⟩,
    ⟨0xFF, 0x04, .crcInit⟩,
    ⟨0xFF, 0x05, .crcUpdate⟩,
    ⟨0xFF, 0x06, .crcCheck⟩,
    ⟨0xFF, 0x07, .tokPack⟩,
    ⟨0xFF, 0x08, .tokUnpack⟩,
    ⟨0xFF, 0x09, .tokSeal⟩,
    ⟨0xFF, 0x0A, .aesEnc⟩,
    ⟨0xFF, 0x0B, .aesDec⟩,
    ⟨0xFF, 0x0C, .generate⟩,
    ⟨0xFF, 0x0D, .parse⟩,
    ⟨0xFF, 0x0E, .keyClr⟩ ]

/-- The command a `CMD` byte selects, or the reason it selects none (R70, R73). -/
def decodeOp (op : Byte) : Except DecodeError Instr :=
  match opcodeTable.find? (fun r => op &&& r.mask == r.pattern) with
  | some r => .ok r.instr
  | none => .error (.illegalCommand op)

/-- Decode the command at the head of a byte sequence and give back the bytes after it. -/
def decode : List Byte → Except DecodeError (Instr × List Byte)
  | [] => .error .noByte
  | op :: rest =>
    match decodeOp op with
    | .ok i => .ok (i, rest)
    | .error e => .error e

/-- The opcode of a command (R72). -/
def encodeOp : Instr → Byte
  | .nop => 0x00
  | .mhEnc => 0x01
  | .mhDec => 0x02
  | .mhValid => 0x03
  | .crcInit => 0x04
  | .crcUpdate => 0x05
  | .crcCheck => 0x06
  | .tokPack => 0x07
  | .tokUnpack => 0x08
  | .tokSeal => 0x09
  | .aesEnc => 0x0A
  | .aesDec => 0x0B
  | .generate => 0x0C
  | .parse => 0x0D
  | .keyClr => 0x0E

/-- The byte sequence of a command (R70: one byte). -/
def encode (i : Instr) : List Byte := [encodeOp i]

/-- The bytes of an instruction numbered as spec/opcode_table.json numbers its bits: the first byte holds bits 7..0. At
least one byte is laid out, the shortest a command can be, with every bit above `nbits` 0. -/
def tableBytes (nbits w : Nat) : List Byte :=
  (List.range (max 1 ((nbits + 7) / 8))).map (fun i => BitVec.ofNat 8 ((w % 2 ^ nbits) / 2 ^ (8 * i)))

/-- The command the decoder reads from a table word. A command is exactly one byte (R70), so a word with bytes left over
names none. -/
def decodeTableWord (nbits w : Nat) : Option Instr :=
  match decode (tableBytes nbits w) with
  | .ok (i, []) => some i
  | .ok (_, _ :: _) => none
  | .error _ => none

end Sys2Proof
end

