-- ==== Sys2Proof/Machine/Params.lean ====
section
/-! DEFINITION. The fixed parameters of spec/00_scope.md R8: "Each is a value the core takes, not a model argument." -/

namespace Sys2Proof.Machine

/-- `CRC_INIT`: the CRC register's initial value. -/
def crcInitValue : Half := 0xFFFF

/-- `CRC_POLY`, in reflected form. -/
def crcPoly : Half := 0x8408

/-- `CRC_RESIDUE`: the checksum of a sealed sequence. -/
def crcResidue : Half := 0xF0B8

/-- `BLK_CAP`: bytes in `BLK`. -/
def blkCap : Nat := 16

/-- `TXT_CAP`: characters in `TXT`. -/
def txtCap : Nat := 32

/-- `TOKEN_BYTES`: the block size of the token and the cipher. -/
def tokenBytes : Nat := 16

/-- `OTP_CHARS`: the characters of an OTP. -/
def otpChars : Nat := 32

/-- The bytes of a token that its checksum covers: the six fields before `crc` (42_token.md R140, R143). -/
def sealedPrefixBytes : Nat := 14

end Sys2Proof.Machine
end

