-- ==== Sys2Proof/Machine/State.lean ====
section
/-! DEFINITION. The state of the core as plain data (spec/10_state.md R20, R35, R36), the ways a step can stop, and the
state after reset (spec/70_reset_and_hazards.md R240). The lemmas about its updates are in Sys2Proof/Laws/State.lean. -/

namespace Sys2Proof.Machine

/-- The errors a command can raise (00_scope.md R12, 60_exceptions.md R210). They are ordinary outcomes recorded in
`ERRCODE`, not model faults (R216). -/
inductive CmdError where
  /-- Text that is not modhex or not of the expected length. -/
  | invalidEncoding
  /-- A length register outside the range the command accepts. -/
  | malformedInput
  /-- The decrypted block fails the residue check. -/
  | checksumMismatch
  /-- The opcode names no command. -/
  | illegalCommand
  deriving DecidableEq, Repr

/-- A place of the register address map (20_memory.md R57): what an 8-bit address selects. -/
inductive Reg where
  | cmd
  | status
  | errcode
  | blkLen
  | txtLen
  | crcL
  | crcH
  | blk (i : Fin 16)
  | txt (i : Fin 32)
  | key (i : Fin 16)
  | tok (i : Fin 16)
  /-- R59: 0x05, 0x08..0x0F and 0x60..0xFF. -/
  | reserved
  deriving DecidableEq, Repr

/-- The whole state. The fields from `cmd` to `pend` are the record of R36, one field each; `STATUS` and its views `BUSY`,
`ERR` and `CAPSLOCK` are computed from them (Machine/Flags.lean). `inReset` is the level of the reset input (R241). The
fields from `bus` on are the model's own: the events the outside world will deliver and the bookkeeping of the open
parameter `LAT` (notes/assumptions/1.md, 2.md, 3.md). -/
structure State where
  /-- `CMD`, 8 bits (R23). -/
  cmd : Byte
  /-- `ERRCODE`, 8 bits (R25). -/
  errcode : Byte
  /-- `STATUS.VALID` (R24). -/
  valid : Bool
  /-- `STATUS.DONE` (R24). -/
  done : Bool
  /-- `STATUS.OVR`, sticky (R24). -/
  ovr : Bool
  /-- `BLK_LEN`, 8 bits (R26). -/
  blkLen : Byte
  /-- `TXT_LEN`, 8 bits (R27). -/
  txtLen : Byte
  /-- `CRC_ACC`, 16 bits (R28). -/
  crcAcc : Half
  /-- `BLK[0..15]` (R29). -/
  blk : Block
  /-- `TXT[0..31]` (R30). -/
  txt : Text
  /-- `KEY[0..15]` (R31). -/
  key : Block
  /-- `TOK[0..15]`, the token in its serialized layout (R32). -/
  tok : Block
  /-- `PEND`: the accepted command that has not completed (R35). -/
  pend : Option Byte
  /-- The reset input is asserted (R241). -/
  inReset : Bool
  /-- The model's own: the bus events still to come, in bus order (20_memory.md R55, R62). -/
  bus : List BusEvent
  /-- The model's own: the byte the last read transaction returned to the host. -/
  rdata : Byte
  /-- The model's own: bus cycles left before the pending command completes. -/
  latLeft : Nat
  /-- The model's own: how many commands were accepted so far, the run number given to `Config.latency`. -/
  accepts : Nat
  deriving DecidableEq, Repr

/-- The faults. There are none: "the core has no fault state" (93_implementation_defined.md, Part A), no access faults
(20_memory.md R59, R52), and an error code is not a fault (60_exceptions.md R216). -/
inductive Fault where
  deriving DecidableEq, Repr

/-- Why the model gives an instruction no meaning. -/
inductive Refusal where
  /-- Raised by an arm of `exec` for a command without a meaning. Safe: the run stops. No arm raises it any more. -/
  | notModelled (mnemonic : String)
  deriving DecidableEq, Repr

/-- The state after reset (R240), with the reset input released, and nothing waiting on the bus: R242, the core waits for
host transactions. The model's own fields start at the values of notes/assumptions/2.md and 3.md. -/
def State.reset : State :=
  { cmd := 0x00, errcode := 0x00, valid := false, done := false, ovr := false,
    blkLen := 0x00, txtLen := 0x00, crcAcc := 0xFFFF,
    blk := Vector.replicate 16 0x00, txt := Vector.replicate 32 0x00,
    key := Vector.replicate 16 0x00, tok := Vector.replicate 16 0x00,
    pend := none, inReset := false,
    bus := [], rdata := 0x00, latLeft := 0, accepts := 0 }

end Sys2Proof.Machine
end

