-- ==== Sys2Proof/Machine/Operands.lean ====
section
/-! DEFINITION. The operand forms of spec/30_encoding.md R74: the leading part of a buffer that a length register bounds,
a whole 16-byte block, and a result written over the leading part of a buffer. The length conditions are those of
spec/60_exceptions.md R211. -/

namespace Sys2Proof.Machine

/-- `v[0 .. len-1]` (00_scope.md R11). -/
def leading {n : Nat} (v : Vector Byte n) (len : Byte) : List Byte := v.toList.take len.toNat

theorem overlay_length {n : Nat} (v : Vector Byte n) (l : List Byte) :
    ((l ++ v.toList.drop l.length).take n).length = n := by
  simp; omega

/-- Write the sequence `l` over the first elements of `v`. The elements past it keep their old values
(92_eei_decisions.md D28); no command gives a sequence longer than the buffer. -/
def overlay {n : Nat} (v : Vector Byte n) (l : List Byte) : Vector Byte n :=
  ⟨((l ++ v.toList.drop l.length).take n).toArray, by simpa using overlay_length v l⟩

/-- A 16-byte sequence as a block. -/
def blockOf (l : List Byte) : Block := overlay (Vector.replicate 16 0x00) l

/-- `LE16(x) = [x[7:0], x[15:8]]` (R11). -/
def le16 (x : Half) : List Byte := [x.extractLsb' 0 8, x.extractLsb' 8 8]

/-- `U16LE(b0, b1) = zext_16(b0) | (zext_16(b1) << 8)` (R11). -/
def u16le (b0 b1 : Byte) : Half := b0.setWidth 16 ||| (b1.setWidth 16 <<< 8)

/-- The operand `BLK[0..BLK_LEN-1]` of `MH_ENC` and `CRC_UPDATE`: `MalformedInput` when `BLK_LEN > 16` (R211). -/
def State.blkOperand (s : State) : Except CmdError (List Byte) :=
  if s.blkLen.toNat > blkCap then .error .malformedInput else .ok (leading s.blk s.blkLen)

/-- The operand `BLK[0..BLK_LEN-1]` of `CRC_CHECK`: `MalformedInput` when `BLK_LEN < 2` or `BLK_LEN > 16` (R211). -/
def State.crcOperand (s : State) : Except CmdError (List Byte) :=
  if s.blkLen.toNat < 2 ∨ s.blkLen.toNat > blkCap then .error .malformedInput else .ok (leading s.blk s.blkLen)

/-- The operand `BLK[0..15]` of `TOK_UNPACK`, `AES_ENC` and `AES_DEC`: `MalformedInput` when `BLK_LEN != 16` (R211). -/
def State.blockOperand (s : State) : Except CmdError Block :=
  if s.blkLen.toNat ≠ tokenBytes then .error .malformedInput else .ok s.blk

/-- The operand `TXT[0..TXT_LEN-1]` of `MH_DEC` and `MH_VALID`: `MalformedInput` when `TXT_LEN > 32` (R211). -/
def State.txtOperand (s : State) : Except CmdError (List Byte) :=
  if s.txtLen.toNat > txtCap then .error .malformedInput else .ok (leading s.txt s.txtLen)

/-- The operand `TXT[0..31]` of `PARSE`: `InvalidEncoding` when `TXT_LEN != 32`, above 32 included (R191, R211). -/
def State.otpOperand (s : State) : Except CmdError (List Byte) :=
  if s.txtLen.toNat ≠ otpChars then .error .invalidEncoding else .ok s.txt.toList

end Sys2Proof.Machine
end

