-- ==== Sys2Proof/Config.lean ====
section
/-! DEFINITION. The parameters the spec leaves open (spec/00_scope.md R9, spec/92_eei_decisions.md, the table of OPEN
parameters). Each is an opaque constant with no body: a statement proved about the model holds for every value of it.
`BUS_TIMING` has no constant: no rule depends on it, and the model gives each access one atomic step (R9, R55). -/

namespace Sys2Proof.Config

/-- `LAT(op)` (R9, 20_memory.md R64, 70_reset_and_hazards.md R252): how many bus cycles pass between the acceptance of
opcode `op` and its completion, for the run numbered by the second argument. R9 lets it differ per opcode and per run and
makes it a finite natural number, possibly 0. Free value: see notes/assumptions/1.md. -/
opaque latency : Byte → Nat → Nat

/-- `CORE_BASE` (20_memory.md R57): where the integrator puts the 256-byte register space in the host's address map. -/
opaque coreBase : Nat

/-- The host's address of the core's register address `a` (R57: core-relative addresses are fixed). -/
def hostAddress (a : Byte) : Nat := coreBase + a.toNat

end Sys2Proof.Config
end

