-- ==== Sys2Proof/Machine/Flags.lean ====
section
/-! DEFINITION. The flags: the fields of `STATUS` (spec/10_state.md R24, R33, R34) and the views of R36. -/

namespace Sys2Proof.Machine

/-- `BUSY = (PEND != none)` (R35, R36). -/
def State.busy (s : State) : Bool := s.pend.isSome

/-- `ERR = (ERRCODE != 0)` (R24, R36): a view, not storage. -/
def State.err (s : State) : Bool := s.errcode != 0x00

/-- `CAPSLOCK = TOK[7][7]` (R24, R34): bit 15 of the token's counter field, live. -/
def State.capslock (s : State) : Bool := s.tok[7].getLsbD 7

/-- The byte a read of `STATUS` returns (R24): bit 0 `BUSY`, 1 `DONE`, 2 `ERR`, 3 `VALID`, 4 `CAPSLOCK`, 5 `OVR`, and bits
7:6 read 0. -/
def State.status (s : State) : Byte :=
  0#2 ++ BitVec.ofBool s.ovr ++ BitVec.ofBool s.capslock ++ BitVec.ofBool s.valid ++ BitVec.ofBool s.err
    ++ BitVec.ofBool s.done ++ BitVec.ofBool s.busy

end Sys2Proof.Machine
end

