-- ==== Sys2Proof/Machine/Ops.lean ====
section
/-! DEFINITION. The shared operations: the register bus (spec/20_memory.md R55..R60), the completion of a command with
success or with an error, which is this core's analogue of taking an exception (spec/60_exceptions.md R212, R213), and the
reset event (spec/70_reset_and_hazards.md R241). R215: there is no return from an error and no nesting. -/

namespace Sys2Proof.Machine

/-- What a register address selects (20_memory.md R57). -/
def decodeAddr (a : Byte) : Reg :=
  if a = 0x00 then .cmd
  else if a = 0x01 then .status
  else if a = 0x02 then .errcode
  else if a = 0x03 then .blkLen
  else if a = 0x04 then .txtLen
  else if a = 0x06 then .crcL
  else if a = 0x07 then .crcH
  else if h : 0x10 ≤ a.toNat ∧ a.toNat ≤ 0x1F then .blk ⟨a.toNat - 0x10, by omega⟩
  else if h : 0x20 ≤ a.toNat ∧ a.toNat ≤ 0x3F then .txt ⟨a.toNat - 0x20, by omega⟩
  else if h : 0x40 ≤ a.toNat ∧ a.toNat ≤ 0x4F then .key ⟨a.toNat - 0x40, by omega⟩
  else if h : 0x50 ≤ a.toNat ∧ a.toNat ≤ 0x5F then .tok ⟨a.toNat - 0x50, by omega⟩
  else .reserved

/-- The byte a register place reads as (R57, R58). `KEY` reads 0x00 whatever it holds (10_state.md R31); a reserved
address reads 0x00 (R59). -/
def State.readReg (s : State) : Reg → Byte
  | .cmd => s.cmd
  | .status => s.status
  | .errcode => s.errcode
  | .blkLen => s.blkLen
  | .txtLen => s.txtLen
  | .crcL => s.crcAcc.extractLsb' 0 8
  | .crcH => s.crcAcc.extractLsb' 8 8
  | .blk i => s.blk[i]
  | .txt i => s.txt[i]
  | .key _ => 0x00
  | .tok i => s.tok[i]
  | .reserved => 0x00

/-- `MemRead(a, 1)` on the core's registers (R58). -/
def State.memRead (s : State) (a : Byte) : Byte := s.readReg (decodeAddr a)

/-- An accepted `CMD` write (10_state.md R23): `CMD <- v`, `PEND <- v`, `DONE <- 0`. The command's latency is fixed here
(00_scope.md R9, notes/assumptions/1.md). -/
def State.accept (s : State) (v : Byte) : State :=
  { s with cmd := v, pend := some v, done := false, latLeft := Config.latency v s.accepts, accepts := s.accepts + 1 }

/-- A write to `STATUS` (R24): bit 5 = 1 clears `OVR`; every other bit is ignored. -/
def State.writeStatus (s : State) (v : Byte) : State :=
  if v.getLsbD 5 then { s with ovr := false } else s

/-- A write that `BUSY` drops (R58): it sets `OVR` and changes nothing else. -/
def State.dropWrite (s : State) : State := { s with ovr := true }

/-- A write to a register place while no command is pending (R58). `ERRCODE` and reserved places ignore it (R59, R60). -/
def State.storeReg (s : State) (r : Reg) (v : Byte) : State :=
  match r with
  | .cmd => s.accept v
  | .status => s.writeStatus v
  | .errcode => s
  | .blkLen => { s with blkLen := v }
  | .txtLen => { s with txtLen := v }
  | .crcL => { s with crcAcc := s.crcAcc.extractLsb' 8 8 ++ v }
  | .crcH => { s with crcAcc := v ++ s.crcAcc.extractLsb' 0 8 }
  | .blk i => { s with blk := s.blk.set i v }
  | .txt i => { s with txt := s.txt.set i v }
  | .key i => { s with key := s.key.set i v }
  | .tok i => { s with tok := s.tok.set i v }
  | .reserved => s

/-- `MemWrite(a, 1, v)` (R58): a `STATUS` write is always performed; any other write is dropped while `BUSY`. -/
def State.memWrite (s : State) (a v : Byte) : State :=
  match decodeAddr a, s.busy with
  | .status, _ => s.writeStatus v
  | _, true => s.dropWrite
  | r, false => s.storeReg r v

/-- The numeric error codes (60_exceptions.md R210). -/
def CmdError.code : CmdError → Byte
  | .invalidEncoding => 0x01
  | .malformedInput => 0x02
  | .checksumMismatch => 0x03
  | .illegalCommand => 0x04

/-- The completion fields of a command that succeeds (R213): `ERRCODE <- 0`, `DONE <- 1`, `PEND <- none`. -/
def State.succeed (s : State) : State := { s with errcode := 0x00, done := true, pend := none }

/-- Taking an error, the core's one exception mechanism (R212): `ERRCODE <- code`, `DONE <- 1`, `PEND <- none`, and no
other register. Nothing is saved and no handler runs (R213). -/
def State.raise (s : State) (e : CmdError) : State := { s with errcode := e.code, done := true, pend := none }

/-- The completion event (R213): `run` is the command's rule evaluated on the registers, an error or the state with the
rule's register writes applied. -/
def State.completeWith (s : State) (run : Except CmdError State) : Host.Outcome State Fault Refusal :=
  match run with
  | .ok t => .next t.succeed
  | .error e => .next (s.raise e)

/-- The reset event (R241): every register takes its value of R240 and a pending command is discarded. The outside world
(`bus`, `rdata`) and the run number of `Config.latency` are no registers of the core and stay. -/
def State.assertReset (s : State) : State :=
  { State.reset with inReset := true, bus := s.bus, rdata := s.rdata, accepts := s.accepts }

/-- What a host read returns: 0x00 while reset is asserted (R241), else the register's byte (R58). -/
def State.hostRead (s : State) (a : Byte) : Byte := if s.inReset then 0x00 else s.memRead a

/-- What a host write does: nothing while reset is asserted (R241), else R58. -/
def State.hostWrite (s : State) (a v : Byte) : State := if s.inReset then s else s.memWrite a v

/-- One bus event that is not `wait` or, for `wait`, one pass of its loop without the loop's test. -/
def State.deliver (s : State) : BusEvent → State
  | .read a => { s with rdata := s.hostRead a }
  | .write a v => s.hostWrite a v
  | .wait => { s with rdata := s.hostRead 0x01 }
  | .idle => s
  | .resetAssert => s.assertReset
  | .resetRelease => { s with inReset := false }

/-- One bus cycle of the pending command's latency goes by. -/
def State.tick (s : State) : State := if s.busy then { s with latLeft := s.latLeft - 1 } else s

/-- Does the host take the event off the bus after this cycle? `WAIT` stays while the `STATUS` it read has bit 0 = 1 (R82). -/
def eventConsumed (e : BusEvent) (rdata : Byte) : Bool :=
  match e with
  | .wait => !rdata.getLsbD 0
  | .read _ => true
  | .write _ _ => true
  | .idle => true
  | .resetAssert => true
  | .resetRelease => true

/-- One bus cycle (20_memory.md R55): the next event of the bus, or an idle cycle when the host has none. -/
def State.busCycle (s : State) : State :=
  match s.bus with
  | [] => s.tick
  | e :: rest =>
    let t := s.tick.deliver e
    if eventConsumed e t.rdata then { t with bus := rest } else t

/-- The command whose completion event is the next event (R62, R213): one is pending, its latency is over, and no reset
falls at the same point, since then the reset wins (60_exceptions.md R218). -/
def State.dueCommand (s : State) : Option Byte :=
  if s.inReset ∨ s.latLeft ≠ 0 ∨ s.bus.head? = some .resetAssert then none else s.pend

/-- Make opcode `v` the very next event: the state an accepted `CMD` write of `v` leaves with a latency of 0, with the
reset input released and no reset waiting to overtake it. -/
def State.placeCommand (s : State) (v : Byte) : State :=
  { s with cmd := v, pend := some v, done := false, latLeft := 0, inReset := false,
           bus := s.bus.dropWhile (fun e => decide (e = .resetAssert)) }

end Sys2Proof.Machine
end

