-- ==== Sys2Proof/Machine/Aes.lean ====
section
/-! DEFINITION. The AES-128 engine (spec/43_aes.md): byte arithmetic R161, the S-boxes R162 and R163, the key schedule
R164, the round transformations R165..R168, the cipher functions R170 and R171, and the commands `AES_ENC` and `AES_DEC`,
R172 and R173. The spec marks the algorithm as general knowledge of its own (93_implementation_defined.md G1). -/

namespace Sys2Proof.Machine

/-- A column of the 4x4 state, or a word `w[i]` of the key schedule: rows 0 to 3 (R160, R164). -/
structure AesColumn where
  r0 : Byte
  r1 : Byte
  r2 : Byte
  r3 : Byte
  deriving DecidableEq, Repr

/-- The 4x4 state, or a round key: columns 0 to 3 (R160). -/
structure AesState where
  c0 : AesColumn
  c1 : AesColumn
  c2 : AesColumn
  c3 : AesColumn
  deriving DecidableEq, Repr

/-- A block enters the state column by column (R160): `s[r][c] = in[r + 4c]`. -/
def aesOfBlock (b : Block) : AesState :=
  ⟨⟨b[0], b[1], b[2], b[3]⟩, ⟨b[4], b[5], b[6], b[7]⟩, ⟨b[8], b[9], b[10], b[11]⟩, ⟨b[12], b[13], b[14], b[15]⟩⟩

/-- The output leaves the same way (R160): `out[r + 4c] = s[r][c]`. -/
def aesToBlock (s : AesState) : Block :=
  #v[s.c0.r0, s.c0.r1, s.c0.r2, s.c0.r3, s.c1.r0, s.c1.r1, s.c1.r2, s.c1.r3,
     s.c2.r0, s.c2.r1, s.c2.r2, s.c2.r3, s.c3.r0, s.c3.r1, s.c3.r2, s.c3.r3]

/-- Bytewise `^` of two columns. -/
def AesColumn.add (a b : AesColumn) : AesColumn := ⟨a.r0 ^^^ b.r0, a.r1 ^^^ b.r1, a.r2 ^^^ b.r2, a.r3 ^^^ b.r3⟩

/-- A function applied to each byte of a column. -/
def AesColumn.mapBytes (f : Byte → Byte) (a : AesColumn) : AesColumn := ⟨f a.r0, f a.r1, f a.r2, f a.r3⟩

/-- A function applied to each column of a state. -/
def AesState.mapColumns (f : AesColumn → AesColumn) (s : AesState) : AesState := ⟨f s.c0, f s.c1, f s.c2, f s.c3⟩

/-- `xtime` (R161): multiplication by x modulo 0x11B. -/
def xtime (a : Byte) : Byte := (a <<< 1) ^^^ (if a.getLsbD 7 then 0x1B else 0x00)

/-- The loop of `gmul` (R161): `k` rounds left, result so far `r`. -/
def gmulLoop : Nat → Byte → Byte → Byte → Byte
  | 0, _, _, r => r
  | k + 1, a, b, r => gmulLoop k (xtime a) (b >>> 1) (if b.getLsbD 0 then r ^^^ a else r)

/-- `gmul(a, b)` (R161): the product in GF(2^8). -/
def gmul (a b : Byte) : Byte := gmulLoop 8 a b 0x00

/-- `SBOX` (R162), a row per high nibble. -/
def sboxRows : List (List Byte) :=
  [ [0x63, 0x7C, 0x77, 0x7B, 0xF2, 0x6B, 0x6F, 0xC5, 0x30, 0x01, 0x67, 0x2B, 0xFE, 0xD7, 0xAB, 0x76],
    [0xCA, 0x82, 0xC9, 0x7D, 0xFA, 0x59, 0x47, 0xF0, 0xAD, 0xD4, 0xA2, 0xAF, 0x9C, 0xA4, 0x72, 0xC0],
    [0xB7, 0xFD, 0x93, 0x26, 0x36, 0x3F, 0xF7, 0xCC, 0x34, 0xA5, 0xE5, 0xF1, 0x71, 0xD8, 0x31, 0x15],
    [0x04, 0xC7, 0x23, 0xC3, 0x18, 0x96, 0x05, 0x9A, 0x07, 0x12, 0x80, 0xE2, 0xEB, 0x27, 0xB2, 0x75],
    [0x09, 0x83, 0x2C, 0x1A, 0x1B, 0x6E, 0x5A, 0xA0, 0x52, 0x3B, 0xD6, 0xB3, 0x29, 0xE3, 0x2F, 0x84],
    [0x53, 0xD1, 0x00, 0xED, 0x20, 0xFC, 0xB1, 0x5B, 0x6A, 0xCB, 0xBE, 0x39, 0x4A, 0x4C, 0x58, 0xCF],
    [0xD0, 0xEF, 0xAA, 0xFB, 0x43, 0x4D, 0x33, 0x85, 0x45, 0xF9, 0x02, 0x7F, 0x50, 0x3C, 0x9F, 0xA8],
    [0x51, 0xA3, 0x40, 0x8F, 0x92, 0x9D, 0x38, 0xF5, 0xBC, 0xB6, 0xDA, 0x21, 0x10, 0xFF, 0xF3, 0xD2],
    [0xCD, 0x0C, 0x13, 0xEC, 0x5F, 0x97, 0x44, 0x17, 0xC4, 0xA7, 0x7E, 0x3D, 0x64, 0x5D, 0x19, 0x73],
    [0x60, 0x81, 0x4F, 0xDC, 0x22, 0x2A, 0x90, 0x88, 0x46, 0xEE, 0xB8, 0x14, 0xDE, 0x5E, 0x0B, 0xDB],
    [0xE0, 0x32, 0x3A, 0x0A, 0x49, 0x06, 0x24, 0x5C, 0xC2, 0xD3, 0xAC, 0x62, 0x91, 0x95, 0xE4, 0x79],
    [0xE7, 0xC8, 0x37, 0x6D, 0x8D, 0xD5, 0x4E, 0xA9, 0x6C, 0x56, 0xF4, 0xEA, 0x65, 0x7A, 0xAE, 0x08],
    [0xBA, 0x78, 0x25, 0x2E, 0x1C, 0xA6, 0xB4, 0xC6, 0xE8, 0xDD, 0x74, 0x1F, 0x4B, 0xBD, 0x8B, 0x8A],
    [0x70, 0x3E, 0xB5, 0x66, 0x48, 0x03, 0xF6, 0x0E, 0x61, 0x35, 0x57, 0xB9, 0x86, 0xC1, 0x1D, 0x9E],
    [0xE1, 0xF8, 0x98, 0x11, 0x69, 0xD9, 0x8E, 0x94, 0x9B, 0x1E, 0x87, 0xE9, 0xCE, 0x55, 0x28, 0xDF],
    [0x8C, 0xA1, 0x89, 0x0D, 0xBF, 0xE6, 0x42, 0x68, 0x41, 0x99, 0x2D, 0x0F, 0xB0, 0x54, 0xBB, 0x16] ]

/-- `INV_SBOX` (R163), a row per high nibble. -/
def invSboxRows : List (List Byte) :=
  [ [0x52, 0x09, 0x6A, 0xD5, 0x30, 0x36, 0xA5, 0x38, 0xBF, 0x40, 0xA3, 0x9E, 0x81, 0xF3, 0xD7, 0xFB],
    [0x7C, 0xE3, 0x39, 0x82, 0x9B, 0x2F, 0xFF, 0x87, 0x34, 0x8E, 0x43, 0x44, 0xC4, 0xDE, 0xE9, 0xCB],
    [0x54, 0x7B, 0x94, 0x32, 0xA6, 0xC2, 0x23, 0x3D, 0xEE, 0x4C, 0x95, 0x0B, 0x42, 0xFA, 0xC3, 0x4E],
    [0x08, 0x2E, 0xA1, 0x66, 0x28, 0xD9, 0x24, 0xB2, 0x76, 0x5B, 0xA2, 0x49, 0x6D, 0x8B, 0xD1, 0x25],
    [0x72, 0xF8, 0xF6, 0x64, 0x86, 0x68, 0x98, 0x16, 0xD4, 0xA4, 0x5C, 0xCC, 0x5D, 0x65, 0xB6, 0x92],
    [0x6C, 0x70, 0x48, 0x50, 0xFD, 0xED, 0xB9, 0xDA, 0x5E, 0x15, 0x46, 0x57, 0xA7, 0x8D, 0x9D, 0x84],
    [0x90, 0xD8, 0xAB, 0x00, 0x8C, 0xBC, 0xD3, 0x0A, 0xF7, 0xE4, 0x58, 0x05, 0xB8, 0xB3, 0x45, 0x06],
    [0xD0, 0x2C, 0x1E, 0x8F, 0xCA, 0x3F, 0x0F, 0x02, 0xC1, 0xAF, 0xBD, 0x03, 0x01, 0x13, 0x8A, 0x6B],
    [0x3A, 0x91, 0x11, 0x41, 0x4F, 0x67, 0xDC, 0xEA, 0x97, 0xF2, 0xCF, 0xCE, 0xF0, 0xB4, 0xE6, 0x73],
    [0x96, 0xAC, 0x74, 0x22, 0xE7, 0xAD, 0x35, 0x85, 0xE2, 0xF9, 0x37, 0xE8, 0x1C, 0x75, 0xDF, 0x6E],
    [0x47, 0xF1, 0x1A, 0x71, 0x1D, 0x29, 0xC5, 0x89, 0x6F, 0xB7, 0x62, 0x0E, 0xAA, 0x18, 0xBE, 0x1B],
    [0xFC, 0x56, 0x3E, 0x4B, 0xC6, 0xD2, 0x79, 0x20, 0x9A, 0xDB, 0xC0, 0xFE, 0x78, 0xCD, 0x5A, 0xF4],
    [0x1F, 0xDD, 0xA8, 0x33, 0x88, 0x07, 0xC7, 0x31, 0xB1, 0x12, 0x10, 0x59, 0x27, 0x80, 0xEC, 0x5F],
    [0x60, 0x51, 0x7F, 0xA9, 0x19, 0xB5, 0x4A, 0x0D, 0x2D, 0xE5, 0x7A, 0x9F, 0x93, 0xC9, 0x9C, 0xEF],
    [0xA0, 0xE0, 0x3B, 0x4D, 0xAE, 0x2A, 0xF5, 0xB0, 0xC8, 0xEB, 0xBB, 0x3C, 0x83, 0x53, 0x99, 0x61],
    [0x17, 0x2B, 0x04, 0x7E, 0xBA, 0x77, 0xD6, 0x26, 0xE1, 0x69, 0x14, 0x63, 0x55, 0x21, 0x0C, 0x7D] ]

/-- A table of R162 or R163 at `x`: the row of the high nibble, the column of the low nibble. -/
def tableAt (rows : List (List Byte)) (x : Byte) : Byte := (rows.getD (x.toNat / 16) []).getD (x.toNat % 16) 0x00

/-- `SBOX[x]` (R162). -/
def sbox (x : Byte) : Byte := tableAt sboxRows x

/-- `INV_SBOX[x]` (R163). -/
def invSbox (x : Byte) : Byte := tableAt invSboxRows x

/-- The affine map `A` of R162. -/
def sboxAffine (b : Byte) : Byte :=
  b ^^^ b.rotateLeft 1 ^^^ b.rotateLeft 2 ^^^ b.rotateLeft 3 ^^^ b.rotateLeft 4

/-- `RotWord` (R164). -/
def rotWord (w : AesColumn) : AesColumn := ⟨w.r1, w.r2, w.r3, w.r0⟩

/-- `SubWord` (R164). -/
def subWord (w : AesColumn) : AesColumn := w.mapBytes sbox

/-- `RCON` (R164). -/
def rcon : List Byte := [0x01, 0x02, 0x04, 0x08, 0x10, 0x20, 0x40, 0x80, 0x1B, 0x36]

/-- The four words after the words of `k` in the schedule (R164): `rc` is the round constant of the first of them. -/
def nextRoundKey (rc : Byte) (k : AesState) : AesState :=
  let w0 := k.c0.add ((subWord (rotWord k.c3)).add ⟨rc, 0x00, 0x00, 0x00⟩)
  let w1 := k.c1.add w0
  let w2 := k.c2.add w1
  let w3 := k.c3.add w2
  ⟨w0, w1, w2, w3⟩

/-- Round key `r` of key `k`, for `r` in 0..10: `w[4r] ++ w[4r+1] ++ w[4r+2] ++ w[4r+3]` (R164). The schedule is computed
from the key at each use and never cached (10_state.md R35). -/
def roundKey (k : Block) : Nat → AesState
  | 0 => aesOfBlock k
  | r + 1 => nextRoundKey (rcon.getD r 0x00) (roundKey k r)

/-- Column `c` of a state, for `c` in 0..3. -/
def AesState.column (s : AesState) : Nat → AesColumn
  | 0 => s.c0
  | 1 => s.c1
  | 2 => s.c2
  | _ => s.c3

/-- Word `w[i]` of the key schedule, for `i` in 0..43 (R164). -/
def keyWord (k : Block) (i : Nat) : AesColumn := (roundKey k (i / 4)).column (i % 4)

/-- `SubBytes` (R165). -/
def subBytes (s : AesState) : AesState := s.mapColumns (AesColumn.mapBytes sbox)

/-- `InvSubBytes` (R165). -/
def invSubBytes (s : AesState) : AesState := s.mapColumns (AesColumn.mapBytes invSbox)

/-- `ShiftRows` (R166): `s'[r][c] = s[r][(c + r) mod 4]`. -/
def shiftRows (s : AesState) : AesState :=
  ⟨⟨s.c0.r0, s.c1.r1, s.c2.r2, s.c3.r3⟩, ⟨s.c1.r0, s.c2.r1, s.c3.r2, s.c0.r3⟩,
   ⟨s.c2.r0, s.c3.r1, s.c0.r2, s.c1.r3⟩, ⟨s.c3.r0, s.c0.r1, s.c1.r2, s.c2.r3⟩⟩

/-- `InvShiftRows` (R166): `s'[r][c] = s[r][(c - r) mod 4]`. -/
def invShiftRows (s : AesState) : AesState :=
  ⟨⟨s.c0.r0, s.c3.r1, s.c2.r2, s.c1.r3⟩, ⟨s.c1.r0, s.c0.r1, s.c3.r2, s.c2.r3⟩,
   ⟨s.c2.r0, s.c1.r1, s.c0.r2, s.c3.r3⟩, ⟨s.c3.r0, s.c2.r1, s.c1.r2, s.c0.r3⟩⟩

/-- One row of a `MixColumns` matrix applied to a column (R167). -/
def mixRow (k0 k1 k2 k3 : Byte) (a : AesColumn) : Byte := gmul k0 a.r0 ^^^ gmul k1 a.r1 ^^^ gmul k2 a.r2 ^^^ gmul k3 a.r3

/-- `MixColumns` on one column (R167). -/
def mixColumn (a : AesColumn) : AesColumn :=
  ⟨mixRow 2 3 1 1 a, mixRow 1 2 3 1 a, mixRow 1 1 2 3 a, mixRow 3 1 1 2 a⟩

/-- `InvMixColumns` on one column (R167). -/
def invMixColumn (a : AesColumn) : AesColumn :=
  ⟨mixRow 14 11 13 9 a, mixRow 9 14 11 13 a, mixRow 13 9 14 11 a, mixRow 11 13 9 14 a⟩

/-- `MixColumns` (R167). -/
def mixColumns (s : AesState) : AesState := s.mapColumns mixColumn

/-- `InvMixColumns` (R167). -/
def invMixColumns (s : AesState) : AesState := s.mapColumns invMixColumn

/-- `AddRoundKey` (R168). -/
def addRoundKey (s rk : AesState) : AesState := ⟨s.c0.add rk.c0, s.c1.add rk.c1, s.c2.add rk.c2, s.c3.add rk.c3⟩

/-- A middle round of the cipher (R170): `AddRoundKey(MixColumns(ShiftRows(SubBytes(s))), r)`. -/
def encRound (s rk : AesState) : AesState := addRoundKey (mixColumns (shiftRows (subBytes s))) rk

/-- A middle round of the inverse cipher (R171): `InvMixColumns(AddRoundKey(InvSubBytes(InvShiftRows(s)), r))`. -/
def decRound (s rk : AesState) : AesState := invMixColumns (addRoundKey (invSubBytes (invShiftRows s)) rk)

/-- `AesEncrypt` (R170): rounds 1 to 9, then round 10 without `MixColumns`. -/
def aesEncrypt (k p : Block) : Block :=
  let s0 := addRoundKey (aesOfBlock p) (roundKey k 0)
  let s9 := [1, 2, 3, 4, 5, 6, 7, 8, 9].foldl (fun s r => encRound s (roundKey k r)) s0
  aesToBlock (addRoundKey (shiftRows (subBytes s9)) (roundKey k 10))

/-- `AesDecrypt` (R171): rounds 9 down to 1, then round key 0. -/
def aesDecrypt (k c : Block) : Block :=
  let s0 := addRoundKey (aesOfBlock c) (roundKey k 10)
  let s9 := [9, 8, 7, 6, 5, 4, 3, 2, 1].foldl (fun s r => decRound s (roundKey k r)) s0
  aesToBlock (addRoundKey (invSubBytes (invShiftRows s9)) (roundKey k 0))

/-- `AES_ENC` (R172): `BLK` encrypted in place under `KEY`. -/
def runAesEnc (s : State) : Except CmdError State := do
  let p ← s.blockOperand
  pure { s with blk := aesEncrypt s.key p }

/-- `AES_ENC` (op 0x0A, R172). -/
def execAesEnc (s : State) : Host.Outcome State Fault Refusal := s.completeWith (runAesEnc s)

/-- `AES_DEC` (R173): `BLK` decrypted in place under `KEY`, with no checksum check. -/
def runAesDec (s : State) : Except CmdError State := do
  let c ← s.blockOperand
  pure { s with blk := aesDecrypt s.key c }

/-- `AES_DEC` (op 0x0B, R173). -/
def execAesDec (s : State) : Host.Outcome State Fault Refusal := s.completeWith (runAesDec s)

end Sys2Proof.Machine
end

