-- ==== Sys2Proof/Machine/Control.lean ====
section
/-! DEFINITION. The control commands and the illegal opcodes (spec/45_control.md). -/

namespace Sys2Proof.Machine

/-- `NOP` (R200): no operation besides the completion fields. -/
def execNop (s : State) : Host.Outcome State Fault Refusal := s.completeWith (.ok s)

/-- `KEY_CLR` (R201): `KEY[i] <- 0x00` for i in 0..15. -/
def execKeyClr (s : State) : Host.Outcome State Fault Refusal :=
  s.completeWith (.ok { s with key := Vector.replicate 16 0x00 })

/-- An accepted opcode 0x0F..0xFF (R202, 30_encoding.md R73): it always raises `IllegalCommand`. -/
def completeIllegal (s : State) : Host.Outcome State Fault Refusal := s.completeWith (.error .illegalCommand)

end Sys2Proof.Machine
end

