-- ==== Sys2Proof/Machine/Crc16.lean ====
section
/-! DEFINITION. The CRC16 checksum generator (spec/41_crc16.md): the functions R120..R122 and the commands `CRC_INIT`,
`CRC_UPDATE` and `CRC_CHECK`, R124..R126. -/

namespace Sys2Proof.Machine

/-- One shift of the CRC register (R120): right by one, and the polynomial XORed in when a 1 falls out. -/
def crcShift (c : Half) : Half := if c.getLsbD 0 then (c >>> 1) ^^^ crcPoly else c >>> 1

/-- `CrcStep` (R120), bit by bit, the least significant bit of `b` first. -/
def crcStep (c : Half) (b : Byte) : Half :=
  (List.range 8).foldl (fun c i => crcShift (c ^^^ (BitVec.ofBool (b.getLsbD i)).setWidth 16)) c

/-- The byte-at-once form of `CrcStep` that R120 gives beside the bit-by-bit one. -/
def crcStepByteAtOnce (c : Half) (b : Byte) : Half :=
  (List.range 8).foldl (fun c _ => crcShift c) (c ^^^ b.setWidth 16)

/-- Fold a byte sequence into a CRC register (R121, R125). -/
def crcFold (c : Half) (b : List Byte) : Half := b.foldl crcStep c

/-- `Checksum` (R121): the raw register content, no final complement. -/
def checksum (b : List Byte) : Half := crcFold crcInitValue b

/-- `CrcOk` (R122): the residue check, the sentinel method of 92_eei_decisions.md D12. -/
def crcOk (b : List Byte) : Bool := checksum b == crcResidue

/-- `CRC_INIT` (op 0x04, R124). -/
def execCrcInit (s : State) : Host.Outcome State Fault Refusal := s.completeWith (.ok { s with crcAcc := crcInitValue })

/-- `CRC_UPDATE` (R125): it chains on `CRC_ACC`. -/
def runCrcUpdate (s : State) : Except CmdError State := do
  let b ← s.blkOperand
  pure { s with crcAcc := crcFold s.crcAcc b }

/-- `CRC_UPDATE` (op 0x05, R125). -/
def execCrcUpdate (s : State) : Host.Outcome State Fault Refusal := s.completeWith (runCrcUpdate s)

/-- `CRC_CHECK` (R126): an internal accumulator; a failed check is no error, it gives `VALID = 0`. -/
def runCrcCheck (s : State) : Except CmdError State := do
  let b ← s.crcOperand
  pure { s with valid := crcOk b }

/-- `CRC_CHECK` (op 0x06, R126). -/
def execCrcCheck (s : State) : Host.Outcome State Fault Refusal := s.completeWith (runCrcCheck s)

end Sys2Proof.Machine
end

