-- ==== Sys2Proof/Machine/ModHex.lean ====
section
/-! DEFINITION. The ModHex codec (spec/40_modhex.md): the lookup and sequence functions R100..R104 and the commands
`MH_ENC`, `MH_DEC` and `MH_VALID`, R105..R107. -/

namespace Sys2Proof.Machine

/-- The modhex alphabet "cbdefghijklnrtuv" as its 8-bit codes, nibble 0 first (30_encoding.md R75). -/
def modhexAlphabet : List Byte :=
  [0x63, 0x62, 0x64, 0x65, 0x66, 0x67, 0x68, 0x69, 0x6A, 0x6B, 0x6C, 0x6E, 0x72, 0x74, 0x75, 0x76]

/-- `MhEncNib` (R100): the code of the n-th character. Total: all 16 nibbles have an entry. -/
def mhEncNib (n : Nibble) : Byte := modhexAlphabet.getD n.toNat 0x00

/-- `MhDecChar` (R101): `(1, n)` when `c` is the code of nibble `n`, else `(0, 0)`. -/
def mhDecChar (c : Byte) : Bool × Nibble :=
  match modhexAlphabet.findIdx? (· == c) with
  | some i => (true, BitVec.ofNat 4 i)
  | none => (false, 0)

/-- The two characters of a byte, high nibble first (R102). -/
def mhEncByte (b : Byte) : List Byte := [mhEncNib (b.extractLsb' 4 4), mhEncNib (b.extractLsb' 0 4)]

/-- `ModHexEncode` (R102). -/
def modHexEncode (b : List Byte) : List Byte := b.flatMap mhEncByte

/-- `IsModHex` (R104): a character-wise scan with no length condition. -/
def isModHex (s : List Byte) : Bool := s.all (fun c => (mhDecChar c).1)

/-- The byte two characters stand for: `(n_high << 4) | n_low` (R103). -/
def mhDecPair (hi lo : Byte) : Byte := ((mhDecChar hi).2.setWidth 8 <<< 4) ||| (mhDecChar lo).2.setWidth 8

/-- The bytes of a text of even length, two characters each (R103, the last line of the pseudocode). -/
def mhDecPairs : List Byte → List Byte
  | hi :: lo :: rest => mhDecPair hi lo :: mhDecPairs rest
  | [_] => []
  | [] => []

/-- `ModHexDecode` (R103): an odd length or a character outside the alphabet raises `InvalidEncoding`. -/
def modHexDecode (s : List Byte) : Except CmdError (List Byte) :=
  if s.length % 2 = 1 then .error .invalidEncoding
  else if isModHex s then .ok (mhDecPairs s)
  else .error .invalidEncoding

/-- `MH_ENC` (R105). The new `TXT_LEN` is `2 * BLK_LEN`, at most 32. -/
def runMhEnc (s : State) : Except CmdError State := do
  let b ← s.blkOperand
  pure { s with txt := overlay s.txt (modHexEncode b), txtLen := BitVec.ofNat 8 (2 * s.blkLen.toNat) }

/-- `MH_ENC` (op 0x01, R105). -/
def execMhEnc (s : State) : Host.Outcome State Fault Refusal := s.completeWith (runMhEnc s)

/-- `MH_DEC` (R106). The order of the checks is that of 60_exceptions.md R214. -/
def runMhDec (s : State) : Except CmdError State := do
  let t ← s.txtOperand
  let b ← modHexDecode t
  pure { s with blk := overlay s.blk b, blkLen := BitVec.ofNat 8 (s.txtLen.toNat / 2) }

/-- `MH_DEC` (op 0x02, R106). -/
def execMhDec (s : State) : Host.Outcome State Fault Refusal := s.completeWith (runMhDec s)

/-- `MH_VALID` (R107): an invalid string is no error; it gives `VALID = 0`. -/
def runMhValid (s : State) : Except CmdError State := do
  let t ← s.txtOperand
  pure { s with valid := isModHex t }

/-- `MH_VALID` (op 0x03, R107). -/
def execMhValid (s : State) : Host.Outcome State Fault Refusal := s.completeWith (runMhValid s)

end Sys2Proof.Machine
end

