-- ==== Sys2Proof/Machine/Token.lean ====
section
/-! DEFINITION. The token (spec/42_token.md, the layout of spec/30_encoding.md R80): the field views R140..R143 and the
commands `TOK_PACK`, `TOK_UNPACK` and `TOK_SEAL`, R144..R146. -/

namespace Sys2Proof.Machine

/-- The seven fields of a token (R80, R140). -/
structure TokenFields where
  /-- `uid(t)`, 6 opaque bytes in order. -/
  identifier : Vector Byte 6
  /-- `ctr(t)`. -/
  counter : Half
  /-- `tstpl(t)`. -/
  timestampLow : Half
  /-- `tstph(t)`. -/
  timestampHigh : Byte
  /-- `use(t)`. -/
  sessionUse : Byte
  /-- `rnd(t)`. -/
  random : Half
  /-- `crc(t)`. -/
  crc : Half
  deriving DecidableEq, Repr

/-- The field views of a 16-byte block (R140). -/
def tokenFields (t : Block) : TokenFields :=
  { identifier := #v[t[0], t[1], t[2], t[3], t[4], t[5]]
    counter := u16le t[6] t[7]
    timestampLow := u16le t[8] t[9]
    timestampHigh := t[10]
    sessionUse := t[11]
    random := u16le t[12] t[13]
    crc := u16le t[14] t[15] }

/-- `Pack` (R140): the block of the field values. -/
def packFields (f : TokenFields) : Block :=
  blockOf (f.identifier.toList ++ le16 f.counter ++ le16 f.timestampLow ++ [f.timestampHigh] ++ [f.sessionUse]
    ++ le16 f.random ++ le16 f.crc)

/-- `Serialize14(t) = t[0..13]` (R140): the bytes the checksum covers. -/
def serialize14 (t : Block) : List Byte := t.toList.take sealedPrefixBytes

/-- A valid token (R141). -/
def tokenValid (t : Block) : Bool := crcOk t.toList

/-- `Counter()` (10_state.md R34): all 16 bits of the counter field, not masked. -/
def tokenCounter (t : Block) : Half := (tokenFields t).counter

/-- `Capslock()` (R34): bit 15 of the counter field. -/
def tokenCapslock (t : Block) : Bool := t[7].getLsbD 7

/-- The 24-bit timestamp (R142). No command reads it. -/
def tokenTimestamp (t : Block) : BitVec 24 :=
  ((tokenFields t).timestampHigh.setWidth 24 <<< 16) ||| (tokenFields t).timestampLow.setWidth 24

/-- The CRC value a sealed token stores (R143): the one's complement of the raw checksum of bytes 0..13. -/
def sealValue (t : Block) : Half := ~~~(checksum (serialize14 t))

/-- `Seal` (R143). -/
def sealToken (t : Block) : Block := blockOf (serialize14 t ++ le16 (sealValue t))

/-- YK `FromFields` (R143): the CRC argument does not matter. -/
def fromFields (f : TokenFields) : Block := sealToken (packFields { f with crc := 0x0000 })

/-- `TOK_PACK` (op 0x07, R144): `TOK` to `BLK`, no checksum check. -/
def execTokPack (s : State) : Host.Outcome State Fault Refusal := s.completeWith (.ok { s with blk := s.tok, blkLen := 16 })

/-- `TOK_UNPACK` (R145): `BLK` to `TOK`, no checksum check. -/
def runTokUnpack (s : State) : Except CmdError State := do
  let b ← s.blockOperand
  pure { s with tok := b }

/-- `TOK_UNPACK` (op 0x08, R145). -/
def execTokUnpack (s : State) : Host.Outcome State Fault Refusal := s.completeWith (runTokUnpack s)

/-- `TOK_SEAL` (op 0x09, R146): it writes `TOK[14..15]` with an internal accumulator. -/
def execTokSeal (s : State) : Host.Outcome State Fault Refusal := s.completeWith (.ok { s with tok := sealToken s.tok })

end Sys2Proof.Machine
end

