-- ==== Sys2Proof/Machine/Otp.lean ====
section
/-! DEFINITION. The OTP transforms `GENERATE` and `PARSE` (spec/44_otp.md R190, R191). Their intermediate blocks are
internal scratch (10_state.md R35): `BLK`, `BLK_LEN` and `CRC_ACC` are neither read nor written (R192). -/

namespace Sys2Proof.Machine

/-- `GENERATE` (op 0x0C, R190): `TOK` as it stands, encrypted and written as 32 modhex characters (30_encoding.md R81). -/
def execGenerate (s : State) : Host.Outcome State Fault Refusal :=
  s.completeWith (.ok { s with txt := overlay s.txt (modHexEncode (aesEncrypt s.key s.tok).toList), txtLen := 32 })

/-- `PARSE` (R191): length, characters, then the checksum of the decrypted block (60_exceptions.md R214). -/
def runParse (s : State) : Except CmdError State := do
  let t ← s.otpOperand
  let c ← modHexDecode t
  let p := aesDecrypt s.key (blockOf c)
  if crcOk p.toList then pure { s with tok := p } else throw .checksumMismatch

/-- `PARSE` (op 0x0D, R191). -/
def execParse (s : State) : Host.Outcome State Fault Refusal := s.completeWith (runParse s)

end Sys2Proof.Machine
end

