-- ==== Sys2Proof/Machine/Dispatch.lean ====
section
/-! DEFINITION. One arm per command: the completion event of that command (spec/60_exceptions.md R213). -/

namespace Sys2Proof.Machine

def exec (i : Instr) (s : State) : Host.Outcome State Fault Refusal :=
  match i with
  | .nop => Sys2Proof.Machine.execNop s
  | .mhEnc => Sys2Proof.Machine.execMhEnc s
  | .mhDec => Sys2Proof.Machine.execMhDec s
  | .mhValid => Sys2Proof.Machine.execMhValid s
  | .crcInit => Sys2Proof.Machine.execCrcInit s
  | .crcUpdate => Sys2Proof.Machine.execCrcUpdate s
  | .crcCheck => Sys2Proof.Machine.execCrcCheck s
  | .tokPack => Sys2Proof.Machine.execTokPack s
  | .tokUnpack => Sys2Proof.Machine.execTokUnpack s
  | .tokSeal => Sys2Proof.Machine.execTokSeal s
  | .aesEnc => Sys2Proof.Machine.execAesEnc s
  | .aesDec => Sys2Proof.Machine.execAesDec s
  | .generate => Sys2Proof.Machine.execGenerate s
  | .parse => Sys2Proof.Machine.execParse s
  | .keyClr => Sys2Proof.Machine.execKeyClr s

end Sys2Proof.Machine
end

