-- ==== Sys2Proof/Machine/Completion.lean ====
section
/-! DEFINITION. The completion event of an accepted opcode byte (spec/30_encoding.md R70, R71, R73;
spec/60_exceptions.md R213). -/

namespace Sys2Proof.Machine

/-- `Complete()` of R213 for the pending opcode `op`: the command it selects, or `IllegalCommand` when it selects none. -/
def complete (op : Byte) (s : State) : Host.Outcome State Fault Refusal :=
  match decode [op] with
  | .ok (i, _) => exec i s
  | .error _ => completeIllegal s

end Sys2Proof.Machine
end

