-- ==== Sys2Proof/Machine/Step.lean ====
section
/-! DEFINITION. One step: the next event of the total order of spec/20_memory.md R62. -/

namespace Sys2Proof.Machine

/-- One event: the completion of the pending command when it is due (60_exceptions.md R213), else one bus cycle
(20_memory.md R55). -/
def step (s : State) : Host.Outcome State Fault Refusal :=
  match s.dueCommand with
  | some op => complete op s
  | none => .next s.busCycle

/-- The state whose very next step runs the command of a table word. The core fetches nothing (10_state.md R22): the place
it takes its next command from is `PEND`, and the opcode is bits 7..0 of the word, every bit above `nbits` being 0
(notes/assumptions/4.md). -/
def State.withFetchWord (s : State) (nbits w : Nat) : State :=
  s.placeCommand ((tableBytes nbits w).headD 0x00)

end Sys2Proof.Machine
end

