-- ==== Sys2Proof/Machine/HostProgram.lean ====
section
/-! DEFINITION. The expansion of the host-program notation into bus transactions (spec/30_encoding.md R82). -/

namespace Sys2Proof.Machine

/-- `WR a, b0; WR a+1, b1; ...` (R82, the row `WRN`). -/
def writeRun : Byte → List Byte → List BusEvent
  | _, [] => []
  | a, b :: rest => .write a b :: writeRun (a + 1) rest

/-- The transactions a line of the notation stands for (R82). -/
def expandLine : HostLine → List BusEvent
  | .wr a v => [.write a v]
  | .rd a => [.read a]
  | .cmd i => [.write 0x00 (encodeOp i)]
  | .cmdByte op => [.write 0x00 op]
  | .wait => [.wait]
  | .wrn a bytes => writeRun a bytes
  | .wrs a text => writeRun a (text.toList.map (fun c => BitVec.ofNat 8 c.toNat))
  | .loadKey k => writeRun 0x40 k

/-- The bus events of a host program: its encoding is its sequence of transactions (R82). -/
def expandProgram (p : List HostLine) : List BusEvent := p.flatMap expandLine

end Sys2Proof.Machine
end

