-- ==== Sys2Proof/Safety.lean ====
section
/-! DEFINITION. The terms claims use: the record of spec/10_state.md R36, what holds of every reachable state, and the
software-visible hazards of spec/70_reset_and_hazards.md R246, R248. -/

namespace Sys2Proof.Machine

/-- The record `CoreState` of R36: the complete state of the core, without the outside world. -/
structure CoreState where
  cmd : Byte
  errcode : Byte
  valid : Bool
  done : Bool
  ovr : Bool
  blkLen : Byte
  txtLen : Byte
  crcAcc : Half
  blk : Block
  txt : Text
  key : Block
  tok : Block
  pend : Option Byte
  deriving DecidableEq, Repr

/-- The core's own part of a state. -/
def State.core (s : State) : CoreState :=
  { cmd := s.cmd, errcode := s.errcode, valid := s.valid, done := s.done, ovr := s.ovr, blkLen := s.blkLen,
    txtLen := s.txtLen, crcAcc := s.crcAcc, blk := s.blk, txt := s.txt, key := s.key, tok := s.tok, pend := s.pend }

/-- What every reachable state satisfies. -/
structure State.Inv (s : State) : Prop where
  /-- Only 0x00..0x04 ever appear in `ERRCODE` (10_state.md R25, 60_exceptions.md R210). -/
  errcode_le : s.errcode.toNat ≤ 4
  /-- A pending command is the one `CMD` holds, and `DONE` is 0 while it is pending (R23, R24). -/
  pending : ∀ op, s.pend = some op → s.cmd = op ∧ s.done = false
  /-- Latency is left only for a pending command (the model's own bookkeeping). -/
  latency : s.pend = none → s.latLeft = 0
  /-- While reset is asserted, the registers stay as R240 gives them (R241). -/
  held_in_reset : s.inReset = true → s.core = State.reset.core
  /-- With no command pending and `DONE` 0, no command was accepted since reset: what only acceptance or completion
  writes still has its reset value (R23, R24, R25, R240). -/
  fresh : s.pend = none → s.done = false → s.cmd = 0x00 ∧ s.errcode = 0x00 ∧ s.valid = false

/-- A write that the core drops (R248): any address but `STATUS`, while a command is pending. -/
def droppedWrite (s : State) : BusEvent → Bool
  | .write a _ => s.busy && !decide (a = 0x01)
  | .read _ => false
  | .wait => false
  | .idle => false
  | .resetAssert => false
  | .resetRelease => false

/-- A read that may be stale (R246): any register but `CMD` and `STATUS`, while a command is pending. -/
def staleRead (s : State) : BusEvent → Bool
  | .read a => s.busy && !decide (a = 0x00) && !decide (a = 0x01)
  | .write _ _ => false
  | .wait => false
  | .idle => false
  | .resetAssert => false
  | .resetRelease => false

/-- The next step meets none of the hazards R246 and R248. -/
def State.hazardFree (s : State) : Bool :=
  match s.bus.head? with
  | some e => !droppedWrite s e && !staleRead s e
  | none => true

/-- A 16-byte block with bit `i` of its 128 bits flipped: bit `i mod 8` of byte `i / 8` (41_crc16.md R127). -/
def flipBit (t : Block) (i : Fin 128) : Block := t.set (i.val / 8) (t[i.val / 8] ^^^ (1#8 <<< (i.val % 8)))

/-- The commands that read `KEY` (10_state.md R31). -/
def readsKey (op : Byte) : Bool := op == 0x0A || op == 0x0B || op == 0x0C || op == 0x0D

/-- `n` steps, stopping at the first fault or refusal: `Host.Core.run` of this machine, over its own names. -/
def run : Nat → State → Host.Outcome State Fault Refusal
  | 0, s => .next s
  | n + 1, s =>
    match step s with
    | .next t => run n t
    | .fault e => .fault e
    | .refused r => .refused r

end Sys2Proof.Machine
end

