-- ==== Sys2Proof/Certificates/Slice0/Obligations.lean ====
section
/-! DEFINITION. The statements for the provers. Each docstring names the rules of spec/ that the statement formalises.
A statement about a command gives its result, every error it can raise, and its frame: an equation `t with the result
registers put back = s with the completion fields` says that no other field of the state changes. -/

open Sys2Proof Sys2Proof.Machine

/-! ### Encoding -/

/-- R72: the opcode of each of the fifteen commands, as a word for the decoder. -/
def Obligations.OpcodeMapDecodes : Prop :=
  decode [0x00] = .ok (.nop, []) ∧ decode [0x01] = .ok (.mhEnc, []) ∧ decode [0x02] = .ok (.mhDec, []) ∧
  decode [0x03] = .ok (.mhValid, []) ∧ decode [0x04] = .ok (.crcInit, []) ∧ decode [0x05] = .ok (.crcUpdate, []) ∧
  decode [0x06] = .ok (.crcCheck, []) ∧ decode [0x07] = .ok (.tokPack, []) ∧ decode [0x08] = .ok (.tokUnpack, []) ∧
  decode [0x09] = .ok (.tokSeal, []) ∧ decode [0x0A] = .ok (.aesEnc, []) ∧ decode [0x0B] = .ok (.aesDec, []) ∧
  decode [0x0C] = .ok (.generate, []) ∧ decode [0x0D] = .ok (.parse, []) ∧ decode [0x0E] = .ok (.keyClr, [])

/-- R70: decoding an encoded command gives the command back and leaves the bytes after it, and a byte that decodes to a
command is that command's encoding. -/
def Obligations.DecodeEncodeAgree : Prop :=
  (∀ (i : Instr) (rest : List Byte), decode (encode i ++ rest) = .ok (i, rest)) ∧
  (∀ (op : Byte) (i : Instr), decode [op] = .ok (i, []) → encode i = [op])

/-- R73, R202: every opcode 0x0F..0xFF names no command; it is accepted while the core is idle like any other, `CMD` reads
it back, and its completion raises `IllegalCommand`, changing nothing but the completion fields. -/
def Obligations.IllegalOpcodeCompletes : Prop :=
  ∀ op : Byte, 0x0F ≤ op.toNat →
    decode [op] = .error (.illegalCommand op) ∧
    (∀ s : State, s.pend = none →
      (s.memWrite 0x00 op).core = { s.core with cmd := op, pend := some op, done := false } ∧
      (s.memWrite 0x00 op).memRead 0x00 = op) ∧
    (∀ s : State, s.dueCommand = some op →
      step s = .next { s with errcode := 0x04, done := true, pend := none })

/-! ### Reset -/

/-- R240: the reset state, and the views after it. -/
def Obligations.ResetStateValues : Prop :=
  State.reset.core =
    { cmd := 0x00, errcode := 0x00, valid := false, done := false, ovr := false, blkLen := 0x00, txtLen := 0x00,
      crcAcc := 0xFFFF,
      blk := #v[0, 0, 0, 0, 0, 0, 0, 0, 0, 0, 0, 0, 0, 0, 0, 0],
      txt := #v[0, 0, 0, 0, 0, 0, 0, 0, 0, 0, 0, 0, 0, 0, 0, 0, 0, 0, 0, 0, 0, 0, 0, 0, 0, 0, 0, 0, 0, 0, 0, 0],
      key := #v[0, 0, 0, 0, 0, 0, 0, 0, 0, 0, 0, 0, 0, 0, 0, 0],
      tok := #v[0, 0, 0, 0, 0, 0, 0, 0, 0, 0, 0, 0, 0, 0, 0, 0],
      pend := none } ∧
  State.reset.busy = false ∧ State.reset.err = false ∧ State.reset.capslock = false ∧ State.reset.status = 0x00

/-- R241, R218: a reset event puts every register at its reset value whatever the state was, discarding a pending command
even when its completion falls at the same point; while reset is asserted reads return 0x00 and writes have no effect; the
release leaves the registers, and a write that follows it at once is performed. -/
def Obligations.ResetEvent : Prop :=
  (∀ (s : State) (rest : List BusEvent), s.bus = .resetAssert :: rest →
    ∃ t, step s = .next t ∧ t.core = State.reset.core ∧ t.inReset = true ∧ t.bus = rest) ∧
  (∀ (s : State) (a : Byte) (rest : List BusEvent), s.inReset = true → s.bus = .read a :: rest →
    ∃ t, step s = .next t ∧ t.core = s.core ∧ t.inReset = true ∧ t.rdata = 0x00 ∧ t.bus = rest) ∧
  (∀ (s : State) (a v : Byte) (rest : List BusEvent), s.inReset = true → s.bus = .write a v :: rest →
    ∃ t, step s = .next t ∧ t.core = s.core ∧ t.inReset = true ∧ t.bus = rest) ∧
  (∀ (s : State) (rest : List BusEvent), s.inReset = true → s.bus = .resetRelease :: rest →
    ∃ t, step s = .next t ∧ t.core = s.core ∧ t.inReset = false ∧ t.bus = rest) ∧
  (∀ (s : State) (a v : Byte) (rest : List BusEvent), s.inReset = true → s.pend = none →
    s.bus = .resetRelease :: .write a v :: rest →
    ∃ t u, step s = .next t ∧ step t = .next u ∧ u.core = (s.memWrite a v).core ∧ u.bus = rest)

/-! ### Steps and invariants -/

/-- R71, R213: when the pending command is due and its opcode decodes to `i`, the step is exactly `exec i`; this is also
what `State.withFetchWord` prepares. The model's `step` adds nothing around `exec`. -/
def Obligations.StepRunsPendingCommand : Prop :=
  (∀ (s : State) (op : Byte) (i : Instr), s.pend = some op → s.inReset = false → s.latLeft = 0 →
    s.bus.head? ≠ some .resetAssert → decode [op] = .ok (i, []) → step s = exec i s) ∧
  (∀ (s : State) (i : Instr), step (s.withFetchWord 8 (encodeOp i).toNat) = exec i (s.withFetchWord 8 (encodeOp i).toNat))

/-- R216, R59: no step of the core stops; an error code is an ordinary outcome and no access faults. -/
def Obligations.EveryStepAnswersNext : Prop := ∀ s : State, ∃ t, step s = .next t

/-- The invariant holds after reset. -/
def Obligations.ResetSatisfiesInvariant : Prop := State.reset.Inv

/-- Every step keeps the invariant: `ERRCODE` stays in 0x00..0x04 (R25, R210), `CMD` holds the pending command and `DONE`
is 0 while it runs (R23, R24), the registers hold their reset values while reset is asserted (R241). -/
def Obligations.StepKeepsInvariant : Prop := ∀ s t : State, s.Inv → step s = .next t → t.Inv

/-- R55: a read transaction returns the register's byte and changes no register; R241: 0x00 in reset. -/
def Obligations.ReadTransactionChangesNoRegister : Prop :=
  ∀ (s : State) (a : Byte) (rest : List BusEvent), s.dueCommand = none → s.bus = .read a :: rest →
    ∃ t, step s = .next t ∧ t.core = s.core ∧ t.rdata = (if s.inReset then 0x00 else s.memRead a) ∧ t.bus = rest

/-- R23: an accepted `CMD` write, a dropped one, and the read of `CMD`, as transactions on the bus. -/
def Obligations.CmdRegister : Prop :=
  (∀ (s : State) (v : Byte) (rest : List BusEvent), s.inReset = false → s.pend = none → s.bus = .write 0x00 v :: rest →
    ∃ t, step s = .next t ∧ t.core = { s.core with cmd := v, pend := some v, done := false } ∧ t.busy = true ∧ t.bus = rest) ∧
  (∀ (s : State) (v : Byte) (rest : List BusEvent), s.inReset = false → s.busy = true → s.dueCommand = none →
    s.bus = .write 0x00 v :: rest →
    ∃ t, step s = .next t ∧ t.core = { s.core with ovr := true } ∧ t.bus = rest) ∧
  (∀ s : State, s.memRead 0x00 = s.cmd) ∧
  (∀ (s : State) (op : Byte), 0x0F ≤ op.toNat → s.dueCommand = some op →
    step s = .next { s with errcode := 0x04, done := true, pend := none }) ∧
  State.reset.cmd = 0x00

/-- R24: the eight bits `STATUS` reads, and the effect of writing it, pending command or not. -/
def Obligations.StatusRegister : Prop :=
  (∀ s : State, s.memRead 0x01 = s.status ∧
    s.status.getLsbD 0 = s.pend.isSome ∧ s.status.getLsbD 1 = s.done ∧
    s.status.getLsbD 2 = decide (s.errcode ≠ 0x00) ∧ s.status.getLsbD 3 = s.valid ∧
    s.status.getLsbD 4 = s.tok[7].getLsbD 7 ∧ s.status.getLsbD 5 = s.ovr ∧
    s.status.getLsbD 6 = false ∧ s.status.getLsbD 7 = false) ∧
  (∀ (s : State) (v : Byte), v.getLsbD 5 = true → s.memWrite 0x01 v = { s with ovr := false }) ∧
  (∀ (s : State) (v : Byte), v.getLsbD 5 = false → s.memWrite 0x01 v = s)

/-- R57, R31, R59: what each address of the register space reads as. -/
def Obligations.RegisterMapReads : Prop :=
  ∀ s : State,
    s.memRead 0x00 = s.cmd ∧ s.memRead 0x01 = s.status ∧ s.memRead 0x02 = s.errcode ∧
    s.memRead 0x03 = s.blkLen ∧ s.memRead 0x04 = s.txtLen ∧
    s.memRead 0x07 ++ s.memRead 0x06 = s.crcAcc ∧
    (∀ i : Fin 16, s.memRead (BitVec.ofNat 8 (0x10 + i.val)) = s.blk[i]) ∧
    (∀ i : Fin 32, s.memRead (BitVec.ofNat 8 (0x20 + i.val)) = s.txt[i]) ∧
    (∀ i : Fin 16, s.memRead (BitVec.ofNat 8 (0x40 + i.val)) = 0x00) ∧
    (∀ i : Fin 16, s.memRead (BitVec.ofNat 8 (0x50 + i.val)) = s.tok[i]) ∧
    (∀ a : Byte, a = 0x05 ∨ (0x08 ≤ a.toNat ∧ a.toNat ≤ 0x0F) ∨ 0x60 ≤ a.toNat → s.memRead a = 0x00)

/-- R56, R57: while no command is pending, a write to a storage address is read back there, and every other address but
`STATUS` (a view of the token among others) reads as before; nothing but the addressed register changes. -/
def Obligations.StorageWriteReadsBack : Prop :=
  ∀ (s : State) (a v : Byte), s.pend = none →
    (a = 0x03 ∨ a = 0x04 ∨ a = 0x06 ∨ a = 0x07 ∨ (0x10 ≤ a.toNat ∧ a.toNat ≤ 0x3F) ∨ (0x50 ≤ a.toNat ∧ a.toNat ≤ 0x5F)) →
    (s.memWrite a v).memRead a = v ∧
    (∀ b : Byte, b ≠ a → b ≠ 0x01 → (s.memWrite a v).memRead b = s.memRead b) ∧
    { s.memWrite a v with blkLen := s.blkLen, txtLen := s.txtLen, crcAcc := s.crcAcc, blk := s.blk, txt := s.txt,
                          tok := s.tok } = s

/-- R31: a write to `KEY[i]` stores the byte there and nowhere else while no command is pending, and `KEY` still reads 0x00. -/
def Obligations.KeyWriteStoresAndReadsZero : Prop :=
  ∀ (s : State) (i : Fin 16) (v : Byte), s.pend = none →
    let t := s.memWrite (BitVec.ofNat 8 (0x40 + i.val)) v
    t.key[i] = v ∧ (∀ j : Fin 16, j ≠ i → t.key[j] = s.key[j]) ∧ { t with key := s.key } = s ∧
    t.memRead (BitVec.ofNat 8 (0x40 + i.val)) = 0x00

/-- R59: the reserved addresses. A read returns 0x00, a write while no command is pending is ignored, a write while one is
pending sets `OVR` and changes nothing else, and neither stops the core. -/
def Obligations.ReservedAddresses : Prop :=
  ∀ a : Byte, a = 0x05 ∨ (0x08 ≤ a.toNat ∧ a.toNat ≤ 0x0F) ∨ 0x60 ≤ a.toNat →
    (∀ s : State, s.memRead a = 0x00) ∧
    (∀ (s : State) (v : Byte), s.pend = none → s.memWrite a v = s) ∧
    (∀ (s : State) (v op : Byte), s.pend = some op → s.memWrite a v = { s with ovr := true }) ∧
    (∀ (s : State) (v : Byte), ∃ t u, step { s with bus := [.read a] } = .next t ∧ step { s with bus := [.write a v] } = .next u)

/-- R58: while a command is pending, a write to any address but `STATUS` sets `OVR` and changes nothing else. -/
def Obligations.BusyDropsWrites : Prop :=
  ∀ (s : State) (a v op : Byte), s.pend = some op → a ≠ 0x01 → s.memWrite a v = { s with ovr := true }

/-- R66, R71: as long as a command stays pending, no step changes a register, `OVR` apart: opcode and operands are those
of the acceptance. -/
def Obligations.OperandsFixedWhileBusy : Prop :=
  ∀ (s t : State) (op op' : Byte), s.pend = some op → step s = .next t → t.pend = some op' →
    { t.core with ovr := s.ovr } = s.core

/-- R60: a write to `ERRCODE` while no command is pending changes nothing, and `ERRCODE` changes only at a completion event
or a reset. -/
def Obligations.ErrcodeChangesOnlyAtCompletionOrReset : Prop :=
  (∀ (s : State) (v : Byte), s.pend = none → s.memWrite 0x02 v = s) ∧
  (∀ s t : State, step s = .next t → t.errcode ≠ s.errcode →
    s.dueCommand.isSome = true ∨ s.bus.head? = some .resetAssert)

/-- R33: `VALID` is written only by a reset, or by an `MH_VALID` or `CRC_CHECK` that completes with `ERRCODE = 0x00`. -/
def Obligations.ValidWrittenOnlyByChecks : Prop :=
  ∀ s t : State, step s = .next t → t.valid ≠ s.valid →
    s.bus.head? = some .resetAssert ∨
    ((s.dueCommand = some 0x03 ∨ s.dueCommand = some 0x06) ∧ t.errcode = 0x00)

/-- R31: no step reveals the key: two states that differ only in `KEY` step to states that differ only in `KEY`, the byte a
read returned included, unless the step completes one of the four commands that read `KEY`. -/
def Obligations.KeyIsOpaque : Prop :=
  ∀ s s' t : State, { s with key := s'.key } = s' → (∀ op, s.dueCommand = some op → readsKey op = false) →
    step s = .next t → ∃ t', step s' = .next t' ∧ { t with key := t'.key } = t'

/-- R64: an accepted command completes, at the latest after the cycles its latency leaves, unless a reset intervenes; and
it completes on the registers of its acceptance, `OVR` apart (R66). The cycle count is the model's bookkeeping of the open
parameter `LAT` (notes/assumptions/1.md). -/
def Obligations.PendingCommandCompletes : Prop :=
  ∀ (s : State) (op : Byte), s.pend = some op → s.inReset = false → BusEvent.resetAssert ∉ s.bus →
    ∃ u t, run s.latLeft s = .next u ∧ { u.core with ovr := s.ovr } = s.core ∧
      complete op u = .next t ∧ run (s.latLeft + 1) s = .next t ∧
      t.pend = none ∧ t.done = true

/-- R245, R63: the canonical protocol. A `CMD` write to an idle core followed by `WAIT` ends with the command's results in
the registers, `BUSY` 0 and the rest of the host's transactions still to come. -/
def Obligations.CanonicalProtocolCompletes : Prop :=
  ∀ (s : State) (op : Byte) (rest : List BusEvent), s.inReset = false → s.pend = none →
    s.bus = .write 0x00 op :: .wait :: rest →
    ∃ n t u, run n s = .next t ∧ complete op (s.accept op) = .next u ∧
      t.core = u.core ∧ t.bus = rest ∧ t.busy = false ∧ t.done = true

/-- R62, R252: what a command does depends on the core's registers alone, not on the bus events to come or the latency, and
a command touches nothing outside the core. -/
def Obligations.CompletionIndependentOfSchedule : Prop :=
  ∀ (i : Instr) (s s' t : State), s.core = s'.core → exec i s = .next t →
    (∃ t', exec i s' = .next t' ∧ t'.core = t.core) ∧
    t.bus = s.bus ∧ t.rdata = s.rdata ∧ t.inReset = s.inReset ∧ t.latLeft = s.latLeft ∧ t.accepts = s.accepts

/-- R213: every completion clears `PEND`, sets `DONE`, leaves `CMD` and `OVR`, and gives one of the codes of R210. -/
def Obligations.CompletionFields : Prop :=
  ∀ (op : Byte) (s t : State), complete op s = .next t →
    t.pend = none ∧ t.done = true ∧ t.cmd = s.cmd ∧ t.ovr = s.ovr ∧
    (t.errcode = 0x00 ∨ t.errcode = 0x01 ∨ t.errcode = 0x02 ∨ t.errcode = 0x03 ∨ t.errcode = 0x04)

/-- R212: the state after a failed command equals the state before it, except for `ERRCODE`, `DONE` and `PEND`. -/
def Obligations.FailureIsAtomic : Prop :=
  ∀ (op : Byte) (s t : State), complete op s = .next t → t.errcode ≠ 0x00 →
    { s with errcode := t.errcode, done := true, pend := none } = t

/-- R211, R214: the error code each command completes with, as a function of the registers it reads, and that of every
opcode that names no command. -/
def Obligations.ErrorTable : Prop :=
  (∀ (i : Instr) (s t : State), exec i s = .next t → t.errcode =
    match i with
    | .nop | .crcInit | .tokPack | .tokSeal | .generate | .keyClr => 0x00
    | .mhEnc | .crcUpdate => if 16 < s.blkLen.toNat then 0x02 else 0x00
    | .mhDec =>
      if 32 < s.txtLen.toNat then 0x02
      else if s.txtLen.toNat % 2 = 1 then 0x01
      else if ∃ j : Fin 32, j.val < s.txtLen.toNat ∧ s.txt[j] ∉ modhexAlphabet then 0x01
      else 0x00
    | .mhValid => if 32 < s.txtLen.toNat then 0x02 else 0x00
    | .crcCheck => if s.blkLen.toNat < 2 ∨ 16 < s.blkLen.toNat then 0x02 else 0x00
    | .tokUnpack | .aesEnc | .aesDec => if s.blkLen = 16 then 0x00 else 0x02
    | .parse =>
      if s.txtLen ≠ 32 then 0x01
      else if ∃ j : Fin 32, s.txt[j] ∉ modhexAlphabet then 0x01
      else if crcOk (aesDecrypt s.key (blockOf (mhDecPairs s.txt.toList))).toList then 0x00
      else 0x03) ∧
  (∀ (op : Byte) (s t : State), 0x0F ≤ op.toNat → complete op s = .next t → t.errcode = 0x04)

/-! ### Control -/

/-- R200: `NOP` completes and does nothing else; it clears a previous error code. -/
def Obligations.NopResult : Prop :=
  decode [0x00] = .ok (.nop, []) ∧
  ∀ s : State, exec .nop s = .next { s with errcode := 0x00, done := true, pend := none }

/-- R201: `KEY_CLR` sets every byte of `KEY` to 0x00 and no other register. -/
def Obligations.KeyClrResult : Prop :=
  decode [0x0E] = .ok (.keyClr, []) ∧
  ∀ s : State, ∃ t, exec .keyClr s = .next t ∧ (∀ i : Fin 16, t.key[i] = 0x00) ∧
    { t with key := s.key } = { s with errcode := 0x00, done := true, pend := none }

/-! ### ModHex -/

/-- R100, R101: the two lookup tables, and that they are inverse. -/
def Obligations.ModHexLookups : Prop :=
  (List.range 16).map (fun n => mhEncNib (BitVec.ofNat 4 n)) =
    [0x63, 0x62, 0x64, 0x65, 0x66, 0x67, 0x68, 0x69, 0x6A, 0x6B, 0x6C, 0x6E, 0x72, 0x74, 0x75, 0x76] ∧
  (∀ n : Nibble, mhDecChar (mhEncNib n) = (true, n)) ∧
  (∀ c : Byte, (mhDecChar c).1 = false → (mhDecChar c).2 = 0 ∧ ∀ n : Nibble, mhEncNib n ≠ c) ∧
  (∀ c : Byte, (mhDecChar c).1 = true → mhEncNib (mhDecChar c).2 = c)

/-- R105: `MH_ENC`. For `BLK_LEN = m <= 16`, characters `2i` and `2i+1` of `TXT` become the codes of the high and low
nibble of `BLK[i]`, `TXT[2m..31]` keep their values and `TXT_LEN` becomes `2m`; above 16 it raises `MalformedInput`. -/
def Obligations.MhEncResult : Prop :=
  decode [0x01] = .ok (.mhEnc, []) ∧
  (∀ s : State, s.blkLen.toNat ≤ 16 →
    ∃ t, exec .mhEnc s = .next t ∧ t.txtLen.toNat = 2 * s.blkLen.toNat ∧
      (∀ i : Fin 32, t.txt[i] =
        if i.val < 2 * s.blkLen.toNat then
          if i.val % 2 = 0 then mhEncNib (s.blk[i.val / 2].extractLsb' 4 4) else mhEncNib (s.blk[i.val / 2].extractLsb' 0 4)
        else s.txt[i]) ∧
      { t with txt := s.txt, txtLen := s.txtLen } = { s with errcode := 0x00, done := true, pend := none }) ∧
  (∀ s : State, 16 < s.blkLen.toNat → exec .mhEnc s = .next { s with errcode := 0x02, done := true, pend := none })

/-- R106: `MH_DEC`. For `TXT_LEN = L <= 32`, even, with every examined character in the alphabet, `BLK[j]` becomes the
byte whose two nibbles `TXT[2j]` and `TXT[2j+1]` stand for, the rest of `BLK` is kept and `BLK_LEN` becomes `L/2`. Above 32
it raises `MalformedInput`, else for odd L or a character outside the alphabet `InvalidEncoding`. -/
def Obligations.MhDecResult : Prop :=
  decode [0x02] = .ok (.mhDec, []) ∧
  (∀ s : State, s.txtLen.toNat ≤ 32 → s.txtLen.toNat % 2 = 0 →
    (∀ i : Fin 32, i.val < s.txtLen.toNat → s.txt[i] ∈ modhexAlphabet) →
    ∃ t, exec .mhDec s = .next t ∧ t.blkLen.toNat = s.txtLen.toNat / 2 ∧
      (∀ j : Fin 16, if j.val < s.txtLen.toNat / 2 then
          mhEncNib (t.blk[j].extractLsb' 4 4) = s.txt[2 * j.val] ∧ mhEncNib (t.blk[j].extractLsb' 0 4) = s.txt[2 * j.val + 1]
        else t.blk[j] = s.blk[j]) ∧
      { t with blk := s.blk, blkLen := s.blkLen } = { s with errcode := 0x00, done := true, pend := none }) ∧
  (∀ s : State, 32 < s.txtLen.toNat → exec .mhDec s = .next { s with errcode := 0x02, done := true, pend := none }) ∧
  (∀ s : State, s.txtLen.toNat ≤ 32 →
    (s.txtLen.toNat % 2 = 1 ∨ ∃ i : Fin 32, i.val < s.txtLen.toNat ∧ s.txt[i] ∉ modhexAlphabet) →
    exec .mhDec s = .next { s with errcode := 0x01, done := true, pend := none })

/-- R107: `MH_VALID`. For `TXT_LEN <= 32`, `VALID` becomes 1 exactly when every examined character is in the alphabet, odd
and zero lengths included; above 32 it raises `MalformedInput`. -/
def Obligations.MhValidResult : Prop :=
  decode [0x03] = .ok (.mhValid, []) ∧
  (∀ s : State, s.txtLen.toNat ≤ 32 →
    exec .mhValid s = .next { s with
      valid := decide (∀ i : Fin 32, i.val < s.txtLen.toNat → s.txt[i] ∈ modhexAlphabet)
      errcode := 0x00, done := true, pend := none }) ∧
  (∀ s : State, 32 < s.txtLen.toNat → exec .mhValid s = .next { s with errcode := 0x02, done := true, pend := none })

/-- R108: round trip, chunking and validity of the sequence functions, and the round trip of the two commands. -/
def Obligations.ModHexLaws : Prop :=
  (∀ b : List Byte, modHexDecode (modHexEncode b) = .ok b) ∧
  (∀ (b : List Byte) (k : Nat), modHexEncode b = modHexEncode (b.take k) ++ modHexEncode (b.drop k)) ∧
  (∀ (s b : List Byte), modHexDecode s = .ok b → isModHex s = true) ∧
  (∀ s : State, s.blkLen.toNat ≤ 16 →
    ∃ t u, exec .mhEnc s = .next t ∧ exec .mhDec t = .next u ∧ u.errcode = 0x00 ∧ u.blk = s.blk ∧ u.blkLen = s.blkLen)

/-! ### CRC16 -/

/-- R120: the bit-by-bit and the byte-at-once form of `CrcStep` agree on all register values and bytes. -/
def Obligations.CrcStepFormsAgree : Prop := ∀ (c : Half) (b : Byte), crcStep c b = crcStepByteAtOnce c b

/-- R124: `CRC_INIT`. -/
def Obligations.CrcInitResult : Prop :=
  decode [0x04] = .ok (.crcInit, []) ∧
  ∀ s : State, exec .crcInit s = .next { s with crcAcc := 0xFFFF, errcode := 0x00, done := true, pend := none }

/-- R125: `CRC_UPDATE` folds `BLK[0..BLK_LEN-1]` into `CRC_ACC`; `BLK_LEN = 0` leaves it; two updates chain; above 16 it
raises `MalformedInput`. -/
def Obligations.CrcUpdateResult : Prop :=
  decode [0x05] = .ok (.crcUpdate, []) ∧
  (∀ s : State, s.blkLen.toNat ≤ 16 →
    exec .crcUpdate s = .next { s with
      crcAcc := (s.blk.toList.take s.blkLen.toNat).foldl crcStep s.crcAcc
      errcode := 0x00, done := true, pend := none }) ∧
  (∀ s : State, 16 < s.blkLen.toNat → exec .crcUpdate s = .next { s with errcode := 0x02, done := true, pend := none }) ∧
  (∀ (p : List Byte) (s : State), s.blkLen.toNat ≤ 16 → s.crcAcc = checksum p →
    ∃ t, exec .crcUpdate s = .next t ∧ t.crcAcc = checksum (p ++ s.blk.toList.take s.blkLen.toNat))

/-- R126: `CRC_CHECK` sets `VALID` to the residue check of `BLK[0..BLK_LEN-1]` for 2 <= BLK_LEN <= 16 and leaves `CRC_ACC`;
outside that range it raises `MalformedInput`. -/
def Obligations.CrcCheckResult : Prop :=
  decode [0x06] = .ok (.crcCheck, []) ∧
  (∀ s : State, 2 ≤ s.blkLen.toNat → s.blkLen.toNat ≤ 16 →
    exec .crcCheck s = .next { s with
      valid := decide (checksum (s.blk.toList.take s.blkLen.toNat) = 0xF0B8)
      errcode := 0x00, done := true, pend := none }) ∧
  (∀ s : State, s.blkLen.toNat < 2 ∨ 16 < s.blkLen.toNat →
    exec .crcCheck s = .next { s with errcode := 0x02, done := true, pend := none })

/-- R123: the two verification strategies agree on every sequence and every stored value. -/
def Obligations.ResidueMeansComplement : Prop :=
  ∀ (p : List Byte) (x : Half), checksum (p ++ le16 x) = 0xF0B8 ↔ x = ~~~(checksum p)

/-- R127: flipping any one of the 128 bits of a sealed block gives a block that fails the residue check. -/
def Obligations.SingleBitFlipDetected : Prop :=
  ∀ (t : Block) (i : Fin 128), tokenValid t = true → tokenValid (flipBit t i) = false

/-! ### Token -/

/-- R140: the field views of a block, the block of a field tuple, the bytes the checksum covers, and that the views and
`Pack` are inverse both ways. -/
def Obligations.FieldViewsInverse : Prop :=
  (∀ t : Block, (tokenFields t).identifier = #v[t[0], t[1], t[2], t[3], t[4], t[5]] ∧
    (tokenFields t).counter = t[7] ++ t[6] ∧ (tokenFields t).timestampLow = t[9] ++ t[8] ∧
    (tokenFields t).timestampHigh = t[10] ∧ (tokenFields t).sessionUse = t[11] ∧
    (tokenFields t).random = t[13] ++ t[12] ∧ (tokenFields t).crc = t[15] ++ t[14]) ∧
  (∀ f : TokenFields, (packFields f).toList = f.identifier.toList ++ le16 f.counter ++ le16 f.timestampLow ++
    [f.timestampHigh, f.sessionUse] ++ le16 f.random ++ le16 f.crc) ∧
  (∀ t : Block, serialize14 t = t.toList.take 14) ∧
  (∀ t : Block, packFields (tokenFields t) = t) ∧ (∀ f : TokenFields, tokenFields (packFields f) = f)

/-- R141: a block is a valid token exactly when it passes the residue check, and exactly when its stored CRC field is the
complement of the checksum of its first 14 bytes. -/
def Obligations.TokenValidMeansStoredComplement : Prop :=
  ∀ t : Block, (tokenValid t = true ↔ checksum t.toList = 0xF0B8) ∧
    (tokenValid t = true ↔ (tokenFields t).crc = ~~~(checksum (t.toList.take 14)))

/-- R143: sealing keeps bytes 0..13, stores the complement of their checksum low byte first, gives a valid token, does not
depend on the old bytes 14..15, and sealing twice is sealing once; `FromFields` is the seal of `Pack`, whatever CRC the
field tuple names. -/
def Obligations.SealLaws : Prop :=
  (∀ t : Block, tokenValid (sealToken t) = true ∧ (∀ i : Fin 14, (sealToken t)[i.val] = t[i.val]) ∧
    (sealToken t)[15] ++ (sealToken t)[14] = ~~~(checksum (t.toList.take 14)) ∧
    (∀ a b : Byte, sealToken ((t.set 14 a).set 15 b) = sealToken t) ∧ sealToken (sealToken t) = sealToken t) ∧
  (∀ f : TokenFields, fromFields f = sealToken (packFields f))

/-- R34: `Counter()` is all 16 bits of bytes 6 and 7, and `Capslock()` is its bit 15, which `STATUS` shows as bit 4. -/
def Obligations.CapslockIsCounterBit : Prop :=
  ∀ s : State, tokenCounter s.tok = s.tok[7] ++ s.tok[6] ∧ tokenCapslock s.tok = (tokenCounter s.tok).getLsbD 15 ∧
    s.status.getLsbD 4 = tokenCapslock s.tok

/-- R142: the 24-bit timestamp value of a block. -/
def Obligations.TimestampValue : Prop :=
  ∀ t : Block, (tokenTimestamp t).toNat = t[10].toNat * 65536 + t[9].toNat * 256 + t[8].toNat

/-- R147, R143: the fourteen field bytes of `Pack(f, 0)` written to `TOK` by a `WRN` line, then `TOK_SEAL`, leave `TOK` as
`FromFields` of the fields, whatever CRC the field tuple names. -/
def Obligations.FieldWritesThenSealIsFromFields : Prop :=
  ∀ (f : TokenFields) (s : State), s.inReset = false → s.pend = none →
    let written := (expandLine (.wrn 0x50 (serialize14 (packFields f)))).foldl State.deliver s
    ∃ t, exec .tokSeal written = .next t ∧ t.tok = fromFields f ∧ t.errcode = 0x00 ∧
      { tokenFields t.tok with crc := f.crc } = f

/-- R144: `TOK_PACK`. -/
def Obligations.TokPackResult : Prop :=
  decode [0x07] = .ok (.tokPack, []) ∧
  ∀ s : State, exec .tokPack s =
    .next { s with blk := s.tok, blkLen := 16, errcode := 0x00, done := true, pend := none }

/-- R145: `TOK_UNPACK` needs `BLK_LEN = 16` and checks no CRC; `CAPSLOCK` follows the new `TOK[7]`. -/
def Obligations.TokUnpackResult : Prop :=
  decode [0x08] = .ok (.tokUnpack, []) ∧
  (∀ s : State, s.blkLen = 16 →
    ∃ t, exec .tokUnpack s = .next t ∧ t = { s with tok := s.blk, errcode := 0x00, done := true, pend := none } ∧
      t.status.getLsbD 4 = s.blk[7].getLsbD 7) ∧
  (∀ s : State, s.blkLen ≠ 16 → exec .tokUnpack s = .next { s with errcode := 0x02, done := true, pend := none })

/-- R146: `TOK_SEAL` writes the complement of the checksum of `TOK[0..13]` to `TOK[14..15]`, low byte first, and nothing
else. -/
def Obligations.TokSealResult : Prop :=
  decode [0x09] = .ok (.tokSeal, []) ∧
  ∀ s : State, ∃ t, exec .tokSeal s = .next t ∧
    t.tok[15] ++ t.tok[14] = ~~~(checksum (s.tok.toList.take 14)) ∧
    (∀ i : Fin 14, t.tok[i.val] = s.tok[i.val]) ∧
    { t with tok := s.tok } = { s with errcode := 0x00, done := true, pend := none } ∧
    exec .tokSeal t = .next t

/-! ### AES-128 -/

/-- R162, R163: each entry of `SBOX` is the affine map of the inverse in GF(2^8), XOR 0x63, and `INV_SBOX` inverts it. -/
def Obligations.SboxDefinition : Prop :=
  sbox 0x00 = sboxAffine 0x00 ^^^ 0x63 ∧
  (∀ x : Byte, x ≠ 0x00 → ∃ y : Byte, gmul x y = 0x01 ∧ sbox x = sboxAffine y ^^^ 0x63) ∧
  (∀ x : Byte, invSbox (sbox x) = x)

/-- R164: the words of the key schedule. -/
def Obligations.KeyScheduleWords : Prop :=
  ∀ k : Block,
    (∀ i : Fin 4, keyWord k i.val = ⟨k[4 * i.val], k[4 * i.val + 1], k[4 * i.val + 2], k[4 * i.val + 3]⟩) ∧
    (∀ i : Nat, 4 ≤ i → i ≤ 43 →
      keyWord k i = (keyWord k (i - 4)).add
        (if i % 4 = 0 then
          (subWord (rotWord (keyWord k (i - 1)))).add ⟨rcon.getD (i / 4 - 1) 0x00, 0x00, 0x00, 0x00⟩
        else keyWord k (i - 1))) ∧
    (∀ r : Nat, r ≤ 10 → roundKey k r = ⟨keyWord k (4 * r), keyWord k (4 * r + 1), keyWord k (4 * r + 2), keyWord k (4 * r + 3)⟩)

/-- R167: `InvMixColumns` uses the inverse matrix: the two undo each other on every column. -/
def Obligations.MixColumnsInverse : Prop :=
  ∀ a : AesColumn, invMixColumn (mixColumn a) = a ∧ mixColumn (invMixColumn a) = a

/-- R171: decryption undoes encryption under the same key, and the other way round. -/
def Obligations.AesInverse : Prop :=
  ∀ k p : Block, aesDecrypt k (aesEncrypt k p) = p ∧ aesEncrypt k (aesDecrypt k p) = p

/-- R172: `AES_ENC` encrypts `BLK` in place under `KEY` when `BLK_LEN = 16`, else it raises `MalformedInput`. -/
def Obligations.AesEncResult : Prop :=
  decode [0x0A] = .ok (.aesEnc, []) ∧
  (∀ s : State, s.blkLen = 16 →
    exec .aesEnc s = .next { s with blk := aesEncrypt s.key s.blk, errcode := 0x00, done := true, pend := none }) ∧
  (∀ s : State, s.blkLen ≠ 16 → exec .aesEnc s = .next { s with errcode := 0x02, done := true, pend := none })

/-- R173: `AES_DEC` decrypts `BLK` in place under `KEY` when `BLK_LEN = 16`, else it raises `MalformedInput`; after an
`AES_ENC` under the same key it restores `BLK`. -/
def Obligations.AesDecResult : Prop :=
  decode [0x0B] = .ok (.aesDec, []) ∧
  (∀ s : State, s.blkLen = 16 →
    exec .aesDec s = .next { s with blk := aesDecrypt s.key s.blk, errcode := 0x00, done := true, pend := none }) ∧
  (∀ s : State, s.blkLen ≠ 16 → exec .aesDec s = .next { s with errcode := 0x02, done := true, pend := none }) ∧
  (∀ s : State, s.blkLen = 16 →
    ∃ t u, exec .aesEnc s = .next t ∧ exec .aesDec t = .next u ∧ u.blk = s.blk)

/-! ### OTP -/

/-- R190, R81: `GENERATE` encrypts `TOK` as it stands; character `2i` of `TXT` becomes the code of the high nibble and
character `2i+1` that of the low nibble of ciphertext byte `i`, `TXT_LEN` becomes 32, and nothing else changes. -/
def Obligations.GenerateResult : Prop :=
  decode [0x0C] = .ok (.generate, []) ∧
  ∀ s : State, ∃ t, exec .generate s = .next t ∧ t.txtLen = 32 ∧
    (∀ i : Fin 16, t.txt[2 * i.val] = mhEncNib ((aesEncrypt s.key s.tok)[i].extractLsb' 4 4) ∧
      t.txt[2 * i.val + 1] = mhEncNib ((aesEncrypt s.key s.tok)[i].extractLsb' 0 4)) ∧
    { t with txt := s.txt, txtLen := s.txtLen } = { s with errcode := 0x00, done := true, pend := none }

/-- R191: `PARSE`. With `TXT_LEN = 32` and a text that stands for the ciphertext `ct`, `TOK` becomes the decrypted block if
it passes the residue check; if it does not, `ChecksumMismatch` is raised; any other length or a character outside the
alphabet raises `InvalidEncoding`. Nothing else changes. -/
def Obligations.ParseResult : Prop :=
  decode [0x0D] = .ok (.parse, []) ∧
  (∀ (s : State) (ct : Block), s.txtLen = 32 →
    (∀ i : Fin 16, s.txt[2 * i.val] = mhEncNib (ct[i].extractLsb' 4 4) ∧
      s.txt[2 * i.val + 1] = mhEncNib (ct[i].extractLsb' 0 4)) →
    checksum (aesDecrypt s.key ct).toList = 0xF0B8 →
    exec .parse s = .next { s with tok := aesDecrypt s.key ct, errcode := 0x00, done := true, pend := none }) ∧
  (∀ (s : State) (ct : Block), s.txtLen = 32 →
    (∀ i : Fin 16, s.txt[2 * i.val] = mhEncNib (ct[i].extractLsb' 4 4) ∧
      s.txt[2 * i.val + 1] = mhEncNib (ct[i].extractLsb' 0 4)) →
    checksum (aesDecrypt s.key ct).toList ≠ 0xF0B8 →
    exec .parse s = .next { s with errcode := 0x03, done := true, pend := none }) ∧
  (∀ s : State, s.txtLen ≠ 32 ∨ (∃ i : Fin 32, s.txt[i] ∉ modhexAlphabet) →
    exec .parse s = .next { s with errcode := 0x01, done := true, pend := none })

/-- R192: the steps of `GENERATE` one command at a time leave the same `TXT` and `TXT_LEN`, with the ciphertext in `BLK`;
those of `PARSE` leave the same `TOK` when its text is valid and the checksum holds. -/
def Obligations.CompositeCommandsMatchTheirSteps : Prop :=
  (∀ s : State, ∃ t u v g, exec .tokPack s = .next t ∧ exec .aesEnc t = .next u ∧ exec .mhEnc u = .next v ∧
    exec .generate s = .next g ∧ v.txt = g.txt ∧ v.txtLen = g.txtLen ∧ v.blk = aesEncrypt s.key s.tok ∧
    g.blk = s.blk ∧ g.blkLen = s.blkLen ∧ g.crcAcc = s.crcAcc) ∧
  (∀ s : State, s.txtLen = 32 → (∀ i : Fin 32, s.txt[i] ∈ modhexAlphabet) →
    ∃ t u v w p, exec .mhDec s = .next t ∧ exec .aesDec t = .next u ∧ exec .crcCheck u = .next v ∧
      exec .tokUnpack v = .next w ∧ exec .parse s = .next p ∧
      (v.valid = true → p.errcode = 0x00 ∧ p.tok = w.tok) ∧ (v.valid = false → p.errcode = 0x03 ∧ p.tok = s.tok) ∧
      p.blk = s.blk ∧ p.blkLen = s.blkLen ∧ p.crcAcc = s.crcAcc)

/-- R193: `GENERATE` followed by `PARSE` under the same key leaves `TOK` as it was: with `ERRCODE = 0x00` for a valid
token, with `ERRCODE = 0x03` for any other. -/
def Obligations.OtpRoundTrip : Prop :=
  ∀ s : State, ∃ t u, exec .generate s = .next t ∧ exec .parse t = .next u ∧ u.tok = s.tok ∧
    u.errcode = if tokenValid s.tok then 0x00 else 0x03

/-! ### Host programs -/

/-- R82: a well-formed `WRN` line stands for one write per byte, byte `i` at address `a + i`. -/
def Obligations.WriteRunExpansion : Prop :=
  ∀ (a : Byte) (bytes : List Byte), (HostLine.wrn a bytes).wellFormed = true →
    (expandLine (.wrn a bytes)).length = bytes.length ∧
    ∀ (i : Nat) (h : i < bytes.length), ∃ b : Byte, b.toNat = a.toNat + i ∧
      (expandLine (.wrn a bytes))[i]? = some (.write b bytes[i])
end

