-- ==== Sys2Proof/Laws/Aes.lean ====
section
/-! SUPPORT. The small laws of the cipher's components. -/

namespace Sys2Proof.Machine

/-- The product loop is linear in the shifted factor. -/
theorem gmulLoop_xor (k : Nat) (a x y r q : Byte) :
    gmulLoop k a (x ^^^ y) (r ^^^ q) = gmulLoop k a x r ^^^ gmulLoop k a y q := by
  induction k generalizing a x y r q with
  | zero => rfl
  | succ k ih =>
    simp only [gmulLoop]
    have h : (x ^^^ y) >>> 1 = (x >>> 1) ^^^ (y >>> 1) := by ext i hi; simp
    rw [h, ← ih, BitVec.getLsbD_xor]
    congr 1
    cases x.getLsbD 0 <;> cases y.getLsbD 0 <;> simp <;> ext i hi <;> simp <;>
      cases a[i] <;> cases r[i] <;> cases q[i] <;> rfl

/-- Multiplication by a constant is linear over XOR. -/
theorem gmul_xor (k x y : Byte) : gmul k (x ^^^ y) = gmul k x ^^^ gmul k y := by
  simpa [gmul] using gmulLoop_xor 8 k x y 0 0

/-- Adding a column twice removes it. -/
@[simp] theorem AesColumn.add_add_cancel (a b : AesColumn) : (a.add b).add b = a := by
  simp [AesColumn.add]

/-- Adding a round key twice removes it. -/
@[simp] theorem addRoundKey_addRoundKey (s rk : AesState) : addRoundKey (addRoundKey s rk) rk = s := by
  simp [addRoundKey]

/-- The two row shifts undo each other. -/
@[simp] theorem invShiftRows_shiftRows (s : AesState) : invShiftRows (shiftRows s) = s := rfl

@[simp] theorem shiftRows_invShiftRows (s : AesState) : shiftRows (invShiftRows s) = s := rfl

/-- A state written out and read in again. -/
@[simp] theorem aesOfBlock_aesToBlock (s : AesState) : aesOfBlock (aesToBlock s) = s := rfl

/-- A block read in and written out again. -/
@[simp] theorem aesToBlock_aesOfBlock (b : Block) : aesToBlock (aesOfBlock b) = b := by
  apply Vector.toList_inj.mp
  apply List.ext_getElem (by simp)
  intro i h _
  simp only [Vector.length_toList] at h
  interval_cases i <;> simp [aesToBlock, aesOfBlock]

end Sys2Proof.Machine
end

