-- ==== Sys2Proof/Laws/Crc16.lean ====
section
/-! SUPPORT. The algebra of one shift of the CRC register: it is linear over XOR and it loses nothing. -/

namespace Sys2Proof.Machine

/-- Shifting is linear over XOR. -/
theorem crcShift_xor (a b : Half) : crcShift (a ^^^ b) = crcShift a ^^^ crcShift b := by
  unfold crcShift
  rw [BitVec.getLsbD_xor]
  have h : (a ^^^ b) >>> 1 = (a >>> 1) ^^^ (b >>> 1) := by ext i hi; simp
  rw [h]
  cases a.getLsbD 0 <;> cases b.getLsbD 0 <;>
    simp only [Bool.xor_false, Bool.xor_true, Bool.not_true, Bool.not_false, if_true, if_false,
      Bool.false_eq_true] <;>
    ext i hi <;> simp only [BitVec.getElem_xor] <;>
    cases (a >>> 1)[i] <;> cases (b >>> 1)[i] <;> cases crcPoly[i] <;> rfl

/-- The bit shifted out of the bottom comes back at the top. -/
theorem crcShift_top (a : Half) : (crcShift a).getLsbD 15 = a.getLsbD 0 := by
  unfold crcShift crcPoly
  split <;> simp_all

/-- Only zero shifts to zero. -/
theorem crcShift_eq_zero {a : Half} (h : crcShift a = 0) : a = 0 := by
  have h0 : a.getLsbD 0 = false := by rw [← crcShift_top, h]; rfl
  unfold crcShift at h
  rw [h0] at h
  simp only [Bool.false_eq_true, if_false] at h
  apply BitVec.eq_of_getLsbD_eq
  intro i hi
  cases i with
  | zero => rw [h0]; rfl
  | succ i =>
    have := congrArg (fun x : Half => x.getLsbD i) h
    simpa [Nat.add_comm] using this

/-- Two register values that shift to the same value are the same. -/
theorem crcShift_injective {a b : Half} (h : crcShift a = crcShift b) : a = b := by
  have : crcShift (a ^^^ b) = 0 := by rw [crcShift_xor, h, BitVec.xor_self]; rfl
  exact BitVec.xor_eq_zero_iff.mp (crcShift_eq_zero this)

/-- Folding a sequence cut in two. -/
theorem crcFold_append (x : Half) (a b : List Byte) : crcFold x (a ++ b) = crcFold (crcFold x a) b :=
  List.foldl_append

end Sys2Proof.Machine
end

