-- ==== Sys2Proof/Laws/Operands.lean ====
section
/-! SUPPORT. What the operand forms and byte-order helpers of Machine/Operands.lean do. -/

namespace Sys2Proof.Machine

theorem overlay_toList {n : Nat} (v : Vector Byte n) (l : List Byte) :
    (overlay v l).toList = (l ++ v.toList.drop l.length).take n := rfl

/-- Element `i` of an overlay: the new sequence where it reaches, else the old element. -/
theorem overlay_getElem {n : Nat} (v : Vector Byte n) (l : List Byte) (i : Nat) (h : i < n) :
    (overlay v l)[i] = if h' : i < l.length then l[i] else v[i] := by
  have key : (overlay v l)[i] = ((l ++ v.toList.drop l.length).take n)[i]'(by simp; omega) := by
    rw [← Vector.getElem_toList (by simpa using h)]; rfl
  rw [key, List.getElem_take]
  split
  · rename_i h'; rw [List.getElem_append_left h']
  · rename_i h'
    rw [List.getElem_append_right (by omega), List.getElem_drop]
    simp [show l.length + (i - l.length) = i by omega]

/-- A sequence of the buffer's length replaces the whole buffer. -/
theorem overlay_toList_of_length {n : Nat} (v : Vector Byte n) (l : List Byte) (h : l.length = n) :
    (overlay v l).toList = l := by
  rw [overlay_toList, List.take_append_of_le_length (by omega), List.take_of_length_le (by omega)]

/-- Overlaying the leading elements of a buffer onto it changes nothing. -/
theorem overlay_take_self {n : Nat} (v : Vector Byte n) (k : Nat) : overlay v (v.toList.take k) = v := by
  ext i h
  rw [overlay_getElem v _ i h]
  split
  · simp
  · rfl

theorem blockOf_toList (l : List Byte) (h : l.length = 16) : (blockOf l).toList = l := overlay_toList_of_length _ l h

theorem blockOf_vector_toList (b : Block) : blockOf b.toList = b := by
  apply Vector.toList_inj.mp
  rw [blockOf_toList _ (by simp)]

@[simp] theorem leading_length {n : Nat} (v : Vector Byte n) (len : Byte) : (leading v len).length = min len.toNat n := by
  simp [leading]

@[simp] theorem le16_length (x : Half) : (le16 x).length = 2 := rfl

theorem u16le_eq_append (b0 b1 : Byte) : u16le b0 b1 = b1 ++ b0 := by
  simp only [u16le, BitVec.append_def, BitVec.shiftLeftZeroExtend_eq]
  ext i hi
  simp only [BitVec.getElem_or, BitVec.getElem_setWidth]
  rw [Bool.or_comm]
  congr 1

@[simp] theorem extract_low_append (hi lo : Byte) : (hi ++ lo : Half).extractLsb' 0 8 = lo := by
  ext i h
  rw [BitVec.getElem_extractLsb', BitVec.getLsbD_append]
  simp [h]

@[simp] theorem extract_high_append (hi lo : Byte) : (hi ++ lo : Half).extractLsb' 8 8 = hi := by
  ext i h
  rw [BitVec.getElem_extractLsb', BitVec.getLsbD_append]
  simp [h]

@[simp] theorem append_extract (x : Half) : (x.extractLsb' 8 8 ++ x.extractLsb' 0 8 : Half) = x := by
  ext i hi
  simp only [BitVec.getElem_append, BitVec.getElem_extractLsb']
  split
  · simp [hi]
  · rw [show 8 + (i - 8) = i by omega, BitVec.getLsbD_eq_getElem hi]

theorem u16le_le16 (x : Half) : u16le (x.extractLsb' 0 8) (x.extractLsb' 8 8) = x := by
  rw [u16le_eq_append, append_extract]

theorem extract_low_u16le (b0 b1 : Byte) : (u16le b0 b1).extractLsb' 0 8 = b0 := by
  rw [u16le_eq_append, extract_low_append]

theorem extract_high_u16le (b0 b1 : Byte) : (u16le b0 b1).extractLsb' 8 8 = b1 := by
  rw [u16le_eq_append, extract_high_append]

/-- What an operand form can answer: its sequence when the length register is in range, else its one error. -/
theorem blkOperand_cases (s : State) :
    (s.blkLen.toNat ≤ 16 ∧ s.blkOperand = .ok (s.blk.toList.take s.blkLen.toNat)) ∨
    (16 < s.blkLen.toNat ∧ s.blkOperand = .error .malformedInput) := by
  unfold State.blkOperand blkCap leading
  split
  · exact .inr ⟨by omega, rfl⟩
  · exact .inl ⟨by omega, rfl⟩

theorem crcOperand_cases (s : State) :
    (2 ≤ s.blkLen.toNat ∧ s.blkLen.toNat ≤ 16 ∧ s.crcOperand = .ok (s.blk.toList.take s.blkLen.toNat)) ∨
    ((s.blkLen.toNat < 2 ∨ 16 < s.blkLen.toNat) ∧ s.crcOperand = .error .malformedInput) := by
  unfold State.crcOperand blkCap leading
  split
  · exact .inr ⟨by omega, rfl⟩
  · exact .inl ⟨by omega, by omega, rfl⟩

theorem blockOperand_cases (s : State) :
    (s.blkLen = 16 ∧ s.blockOperand = .ok s.blk) ∨ (s.blkLen ≠ 16 ∧ s.blockOperand = .error .malformedInput) := by
  unfold State.blockOperand tokenBytes
  split
  · rename_i h; exact .inr ⟨fun e => h (by rw [e]; rfl), rfl⟩
  · rename_i h; exact .inl ⟨BitVec.eq_of_toNat_eq (by simpa using h), rfl⟩

theorem txtOperand_cases (s : State) :
    (s.txtLen.toNat ≤ 32 ∧ s.txtOperand = .ok (s.txt.toList.take s.txtLen.toNat)) ∨
    (32 < s.txtLen.toNat ∧ s.txtOperand = .error .malformedInput) := by
  unfold State.txtOperand txtCap leading
  split
  · exact .inr ⟨by omega, rfl⟩
  · exact .inl ⟨by omega, rfl⟩

theorem otpOperand_cases (s : State) :
    (s.txtLen = 32 ∧ s.otpOperand = .ok s.txt.toList) ∨ (s.txtLen ≠ 32 ∧ s.otpOperand = .error .invalidEncoding) := by
  unfold State.otpOperand otpChars
  split
  · rename_i h; exact .inr ⟨fun e => h (by rw [e]; rfl), rfl⟩
  · rename_i h; exact .inl ⟨BitVec.eq_of_toNat_eq (by simpa using h), rfl⟩

end Sys2Proof.Machine
end

