-- ==== Sys2Proof/Laws/State.lean ====
section
/-! SUPPORT. One lemma per field per update of the state, so that no later proof unfolds a record update. -/

namespace Sys2Proof.Machine

/-! `State.succeed` -/

@[simp] theorem succeed_cmd (s : State) : s.succeed.cmd = s.cmd := rfl
@[simp] theorem succeed_errcode (s : State) : s.succeed.errcode = 0x00 := rfl
@[simp] theorem succeed_valid (s : State) : s.succeed.valid = s.valid := rfl
@[simp] theorem succeed_done (s : State) : s.succeed.done = true := rfl
@[simp] theorem succeed_ovr (s : State) : s.succeed.ovr = s.ovr := rfl
@[simp] theorem succeed_blkLen (s : State) : s.succeed.blkLen = s.blkLen := rfl
@[simp] theorem succeed_txtLen (s : State) : s.succeed.txtLen = s.txtLen := rfl
@[simp] theorem succeed_crcAcc (s : State) : s.succeed.crcAcc = s.crcAcc := rfl
@[simp] theorem succeed_blk (s : State) : s.succeed.blk = s.blk := rfl
@[simp] theorem succeed_txt (s : State) : s.succeed.txt = s.txt := rfl
@[simp] theorem succeed_key (s : State) : s.succeed.key = s.key := rfl
@[simp] theorem succeed_tok (s : State) : s.succeed.tok = s.tok := rfl
@[simp] theorem succeed_pend (s : State) : s.succeed.pend = none := rfl
@[simp] theorem succeed_inReset (s : State) : s.succeed.inReset = s.inReset := rfl
@[simp] theorem succeed_bus (s : State) : s.succeed.bus = s.bus := rfl
@[simp] theorem succeed_rdata (s : State) : s.succeed.rdata = s.rdata := rfl
@[simp] theorem succeed_latLeft (s : State) : s.succeed.latLeft = s.latLeft := rfl
@[simp] theorem succeed_accepts (s : State) : s.succeed.accepts = s.accepts := rfl

/-! `State.raise` -/

@[simp] theorem raise_cmd (s : State) (e : CmdError) : (s.raise e).cmd = s.cmd := rfl
@[simp] theorem raise_errcode (s : State) (e : CmdError) : (s.raise e).errcode = e.code := rfl
@[simp] theorem raise_valid (s : State) (e : CmdError) : (s.raise e).valid = s.valid := rfl
@[simp] theorem raise_done (s : State) (e : CmdError) : (s.raise e).done = true := rfl
@[simp] theorem raise_ovr (s : State) (e : CmdError) : (s.raise e).ovr = s.ovr := rfl
@[simp] theorem raise_blkLen (s : State) (e : CmdError) : (s.raise e).blkLen = s.blkLen := rfl
@[simp] theorem raise_txtLen (s : State) (e : CmdError) : (s.raise e).txtLen = s.txtLen := rfl
@[simp] theorem raise_crcAcc (s : State) (e : CmdError) : (s.raise e).crcAcc = s.crcAcc := rfl
@[simp] theorem raise_blk (s : State) (e : CmdError) : (s.raise e).blk = s.blk := rfl
@[simp] theorem raise_txt (s : State) (e : CmdError) : (s.raise e).txt = s.txt := rfl
@[simp] theorem raise_key (s : State) (e : CmdError) : (s.raise e).key = s.key := rfl
@[simp] theorem raise_tok (s : State) (e : CmdError) : (s.raise e).tok = s.tok := rfl
@[simp] theorem raise_pend (s : State) (e : CmdError) : (s.raise e).pend = none := rfl
@[simp] theorem raise_inReset (s : State) (e : CmdError) : (s.raise e).inReset = s.inReset := rfl
@[simp] theorem raise_bus (s : State) (e : CmdError) : (s.raise e).bus = s.bus := rfl
@[simp] theorem raise_rdata (s : State) (e : CmdError) : (s.raise e).rdata = s.rdata := rfl
@[simp] theorem raise_latLeft (s : State) (e : CmdError) : (s.raise e).latLeft = s.latLeft := rfl
@[simp] theorem raise_accepts (s : State) (e : CmdError) : (s.raise e).accepts = s.accepts := rfl

/-! `State.accept` -/

@[simp] theorem accept_cmd (s : State) (v : Byte) : (s.accept v).cmd = v := rfl
@[simp] theorem accept_errcode (s : State) (v : Byte) : (s.accept v).errcode = s.errcode := rfl
@[simp] theorem accept_valid (s : State) (v : Byte) : (s.accept v).valid = s.valid := rfl
@[simp] theorem accept_done (s : State) (v : Byte) : (s.accept v).done = false := rfl
@[simp] theorem accept_ovr (s : State) (v : Byte) : (s.accept v).ovr = s.ovr := rfl
@[simp] theorem accept_blkLen (s : State) (v : Byte) : (s.accept v).blkLen = s.blkLen := rfl
@[simp] theorem accept_txtLen (s : State) (v : Byte) : (s.accept v).txtLen = s.txtLen := rfl
@[simp] theorem accept_crcAcc (s : State) (v : Byte) : (s.accept v).crcAcc = s.crcAcc := rfl
@[simp] theorem accept_blk (s : State) (v : Byte) : (s.accept v).blk = s.blk := rfl
@[simp] theorem accept_txt (s : State) (v : Byte) : (s.accept v).txt = s.txt := rfl
@[simp] theorem accept_key (s : State) (v : Byte) : (s.accept v).key = s.key := rfl
@[simp] theorem accept_tok (s : State) (v : Byte) : (s.accept v).tok = s.tok := rfl
@[simp] theorem accept_pend (s : State) (v : Byte) : (s.accept v).pend = some v := rfl
@[simp] theorem accept_inReset (s : State) (v : Byte) : (s.accept v).inReset = s.inReset := rfl
@[simp] theorem accept_bus (s : State) (v : Byte) : (s.accept v).bus = s.bus := rfl
@[simp] theorem accept_rdata (s : State) (v : Byte) : (s.accept v).rdata = s.rdata := rfl
@[simp] theorem accept_latLeft (s : State) (v : Byte) : (s.accept v).latLeft = Config.latency v s.accepts := rfl
@[simp] theorem accept_accepts (s : State) (v : Byte) : (s.accept v).accepts = s.accepts + 1 := rfl

/-! `State.dropWrite` -/

@[simp] theorem dropWrite_cmd (s : State) : s.dropWrite.cmd = s.cmd := rfl
@[simp] theorem dropWrite_errcode (s : State) : s.dropWrite.errcode = s.errcode := rfl
@[simp] theorem dropWrite_valid (s : State) : s.dropWrite.valid = s.valid := rfl
@[simp] theorem dropWrite_done (s : State) : s.dropWrite.done = s.done := rfl
@[simp] theorem dropWrite_ovr (s : State) : s.dropWrite.ovr = true := rfl
@[simp] theorem dropWrite_blkLen (s : State) : s.dropWrite.blkLen = s.blkLen := rfl
@[simp] theorem dropWrite_txtLen (s : State) : s.dropWrite.txtLen = s.txtLen := rfl
@[simp] theorem dropWrite_crcAcc (s : State) : s.dropWrite.crcAcc = s.crcAcc := rfl
@[simp] theorem dropWrite_blk (s : State) : s.dropWrite.blk = s.blk := rfl
@[simp] theorem dropWrite_txt (s : State) : s.dropWrite.txt = s.txt := rfl
@[simp] theorem dropWrite_key (s : State) : s.dropWrite.key = s.key := rfl
@[simp] theorem dropWrite_tok (s : State) : s.dropWrite.tok = s.tok := rfl
@[simp] theorem dropWrite_pend (s : State) : s.dropWrite.pend = s.pend := rfl
@[simp] theorem dropWrite_inReset (s : State) : s.dropWrite.inReset = s.inReset := rfl
@[simp] theorem dropWrite_bus (s : State) : s.dropWrite.bus = s.bus := rfl
@[simp] theorem dropWrite_rdata (s : State) : s.dropWrite.rdata = s.rdata := rfl
@[simp] theorem dropWrite_latLeft (s : State) : s.dropWrite.latLeft = s.latLeft := rfl
@[simp] theorem dropWrite_accepts (s : State) : s.dropWrite.accepts = s.accepts := rfl

/-! `State.assertReset` -/

@[simp] theorem assertReset_cmd (s : State) : s.assertReset.cmd = State.reset.cmd := rfl
@[simp] theorem assertReset_errcode (s : State) : s.assertReset.errcode = State.reset.errcode := rfl
@[simp] theorem assertReset_valid (s : State) : s.assertReset.valid = State.reset.valid := rfl
@[simp] theorem assertReset_done (s : State) : s.assertReset.done = State.reset.done := rfl
@[simp] theorem assertReset_ovr (s : State) : s.assertReset.ovr = State.reset.ovr := rfl
@[simp] theorem assertReset_blkLen (s : State) : s.assertReset.blkLen = State.reset.blkLen := rfl
@[simp] theorem assertReset_txtLen (s : State) : s.assertReset.txtLen = State.reset.txtLen := rfl
@[simp] theorem assertReset_crcAcc (s : State) : s.assertReset.crcAcc = State.reset.crcAcc := rfl
@[simp] theorem assertReset_blk (s : State) : s.assertReset.blk = State.reset.blk := rfl
@[simp] theorem assertReset_txt (s : State) : s.assertReset.txt = State.reset.txt := rfl
@[simp] theorem assertReset_key (s : State) : s.assertReset.key = State.reset.key := rfl
@[simp] theorem assertReset_tok (s : State) : s.assertReset.tok = State.reset.tok := rfl
@[simp] theorem assertReset_pend (s : State) : s.assertReset.pend = State.reset.pend := rfl
@[simp] theorem assertReset_inReset (s : State) : s.assertReset.inReset = true := rfl
@[simp] theorem assertReset_bus (s : State) : s.assertReset.bus = s.bus := rfl
@[simp] theorem assertReset_rdata (s : State) : s.assertReset.rdata = s.rdata := rfl
@[simp] theorem assertReset_latLeft (s : State) : s.assertReset.latLeft = State.reset.latLeft := rfl
@[simp] theorem assertReset_accepts (s : State) : s.assertReset.accepts = s.accepts := rfl

/-! `State.placeCommand` -/

@[simp] theorem placeCommand_cmd (s : State) (v : Byte) : (s.placeCommand v).cmd = v := rfl
@[simp] theorem placeCommand_errcode (s : State) (v : Byte) : (s.placeCommand v).errcode = s.errcode := rfl
@[simp] theorem placeCommand_valid (s : State) (v : Byte) : (s.placeCommand v).valid = s.valid := rfl
@[simp] theorem placeCommand_done (s : State) (v : Byte) : (s.placeCommand v).done = false := rfl
@[simp] theorem placeCommand_ovr (s : State) (v : Byte) : (s.placeCommand v).ovr = s.ovr := rfl
@[simp] theorem placeCommand_blkLen (s : State) (v : Byte) : (s.placeCommand v).blkLen = s.blkLen := rfl
@[simp] theorem placeCommand_txtLen (s : State) (v : Byte) : (s.placeCommand v).txtLen = s.txtLen := rfl
@[simp] theorem placeCommand_crcAcc (s : State) (v : Byte) : (s.placeCommand v).crcAcc = s.crcAcc := rfl
@[simp] theorem placeCommand_blk (s : State) (v : Byte) : (s.placeCommand v).blk = s.blk := rfl
@[simp] theorem placeCommand_txt (s : State) (v : Byte) : (s.placeCommand v).txt = s.txt := rfl
@[simp] theorem placeCommand_key (s : State) (v : Byte) : (s.placeCommand v).key = s.key := rfl
@[simp] theorem placeCommand_tok (s : State) (v : Byte) : (s.placeCommand v).tok = s.tok := rfl
@[simp] theorem placeCommand_pend (s : State) (v : Byte) : (s.placeCommand v).pend = some v := rfl
@[simp] theorem placeCommand_inReset (s : State) (v : Byte) : (s.placeCommand v).inReset = false := rfl
@[simp] theorem placeCommand_bus (s : State) (v : Byte) : (s.placeCommand v).bus = s.bus.dropWhile (fun e => decide (e = .resetAssert)) := rfl
@[simp] theorem placeCommand_rdata (s : State) (v : Byte) : (s.placeCommand v).rdata = s.rdata := rfl
@[simp] theorem placeCommand_latLeft (s : State) (v : Byte) : (s.placeCommand v).latLeft = 0 := rfl
@[simp] theorem placeCommand_accepts (s : State) (v : Byte) : (s.placeCommand v).accepts = s.accepts := rfl

/-! `State.tick` -/

@[simp] theorem tick_cmd (s : State) : s.tick.cmd = s.cmd := by unfold State.tick; split <;> rfl
@[simp] theorem tick_errcode (s : State) : s.tick.errcode = s.errcode := by unfold State.tick; split <;> rfl
@[simp] theorem tick_valid (s : State) : s.tick.valid = s.valid := by unfold State.tick; split <;> rfl
@[simp] theorem tick_done (s : State) : s.tick.done = s.done := by unfold State.tick; split <;> rfl
@[simp] theorem tick_ovr (s : State) : s.tick.ovr = s.ovr := by unfold State.tick; split <;> rfl
@[simp] theorem tick_blkLen (s : State) : s.tick.blkLen = s.blkLen := by unfold State.tick; split <;> rfl
@[simp] theorem tick_txtLen (s : State) : s.tick.txtLen = s.txtLen := by unfold State.tick; split <;> rfl
@[simp] theorem tick_crcAcc (s : State) : s.tick.crcAcc = s.crcAcc := by unfold State.tick; split <;> rfl
@[simp] theorem tick_blk (s : State) : s.tick.blk = s.blk := by unfold State.tick; split <;> rfl
@[simp] theorem tick_txt (s : State) : s.tick.txt = s.txt := by unfold State.tick; split <;> rfl
@[simp] theorem tick_key (s : State) : s.tick.key = s.key := by unfold State.tick; split <;> rfl
@[simp] theorem tick_tok (s : State) : s.tick.tok = s.tok := by unfold State.tick; split <;> rfl
@[simp] theorem tick_pend (s : State) : s.tick.pend = s.pend := by unfold State.tick; split <;> rfl
@[simp] theorem tick_inReset (s : State) : s.tick.inReset = s.inReset := by unfold State.tick; split <;> rfl
@[simp] theorem tick_bus (s : State) : s.tick.bus = s.bus := by unfold State.tick; split <;> rfl
@[simp] theorem tick_rdata (s : State) : s.tick.rdata = s.rdata := by unfold State.tick; split <;> rfl
@[simp] theorem tick_latLeft (s : State) : s.tick.latLeft = if s.busy then s.latLeft - 1 else s.latLeft := by unfold State.tick; split <;> rfl
@[simp] theorem tick_accepts (s : State) : s.tick.accepts = s.accepts := by unfold State.tick; split <;> rfl

/-! `State.writeStatus` -/

@[simp] theorem writeStatus_cmd (s : State) (v : Byte) : (s.writeStatus v).cmd = s.cmd := by unfold State.writeStatus; split <;> rfl
@[simp] theorem writeStatus_errcode (s : State) (v : Byte) : (s.writeStatus v).errcode = s.errcode := by unfold State.writeStatus; split <;> rfl
@[simp] theorem writeStatus_valid (s : State) (v : Byte) : (s.writeStatus v).valid = s.valid := by unfold State.writeStatus; split <;> rfl
@[simp] theorem writeStatus_done (s : State) (v : Byte) : (s.writeStatus v).done = s.done := by unfold State.writeStatus; split <;> rfl
@[simp] theorem writeStatus_ovr (s : State) (v : Byte) : (s.writeStatus v).ovr = if v.getLsbD 5 then false else s.ovr := by unfold State.writeStatus; split <;> rfl
@[simp] theorem writeStatus_blkLen (s : State) (v : Byte) : (s.writeStatus v).blkLen = s.blkLen := by unfold State.writeStatus; split <;> rfl
@[simp] theorem writeStatus_txtLen (s : State) (v : Byte) : (s.writeStatus v).txtLen = s.txtLen := by unfold State.writeStatus; split <;> rfl
@[simp] theorem writeStatus_crcAcc (s : State) (v : Byte) : (s.writeStatus v).crcAcc = s.crcAcc := by unfold State.writeStatus; split <;> rfl
@[simp] theorem writeStatus_blk (s : State) (v : Byte) : (s.writeStatus v).blk = s.blk := by unfold State.writeStatus; split <;> rfl
@[simp] theorem writeStatus_txt (s : State) (v : Byte) : (s.writeStatus v).txt = s.txt := by unfold State.writeStatus; split <;> rfl
@[simp] theorem writeStatus_key (s : State) (v : Byte) : (s.writeStatus v).key = s.key := by unfold State.writeStatus; split <;> rfl
@[simp] theorem writeStatus_tok (s : State) (v : Byte) : (s.writeStatus v).tok = s.tok := by unfold State.writeStatus; split <;> rfl
@[simp] theorem writeStatus_pend (s : State) (v : Byte) : (s.writeStatus v).pend = s.pend := by unfold State.writeStatus; split <;> rfl
@[simp] theorem writeStatus_inReset (s : State) (v : Byte) : (s.writeStatus v).inReset = s.inReset := by unfold State.writeStatus; split <;> rfl
@[simp] theorem writeStatus_bus (s : State) (v : Byte) : (s.writeStatus v).bus = s.bus := by unfold State.writeStatus; split <;> rfl
@[simp] theorem writeStatus_rdata (s : State) (v : Byte) : (s.writeStatus v).rdata = s.rdata := by unfold State.writeStatus; split <;> rfl
@[simp] theorem writeStatus_latLeft (s : State) (v : Byte) : (s.writeStatus v).latLeft = s.latLeft := by unfold State.writeStatus; split <;> rfl
@[simp] theorem writeStatus_accepts (s : State) (v : Byte) : (s.writeStatus v).accepts = s.accepts := by unfold State.writeStatus; split <;> rfl

/-! `State.core`: the events of the outside world touch no register of the core. -/

@[simp] theorem core_with_bus (s : State) (l : List BusEvent) : ({ s with bus := l } : State).core = s.core := rfl
@[simp] theorem core_with_rdata (s : State) (v : Byte) : ({ s with rdata := v } : State).core = s.core := rfl
@[simp] theorem core_with_inReset (s : State) (b : Bool) : ({ s with inReset := b } : State).core = s.core := rfl
@[simp] theorem tick_core (s : State) : s.tick.core = s.core := by unfold State.tick; split <;> rfl
@[simp] theorem assertReset_core (s : State) : s.assertReset.core = State.reset.core := rfl
@[simp] theorem accept_core (s : State) (v : Byte) :
    (s.accept v).core = { s.core with cmd := v, pend := some v, done := false } := rfl
@[simp] theorem dropWrite_core (s : State) : s.dropWrite.core = { s.core with ovr := true } := rfl

/-! The views. -/

@[simp] theorem busy_of_pend_none (s : State) (h : s.pend = none) : s.busy = false := by simp [State.busy, h]
@[simp] theorem busy_of_pend_some (s : State) (op : Byte) (h : s.pend = some op) : s.busy = true := by simp [State.busy, h]
theorem busy_iff (s : State) : s.busy = true ↔ ∃ op, s.pend = some op := by simp [State.busy, Option.isSome_iff_exists]
@[simp] theorem tick_busy (s : State) : s.tick.busy = s.busy := by simp [State.busy]
@[simp] theorem succeed_busy (s : State) : s.succeed.busy = false := rfl
@[simp] theorem raise_busy (s : State) (e : CmdError) : (s.raise e).busy = false := rfl

end Sys2Proof.Machine
end

