-- ==== Sys2Proof/Laws/Ops.lean ====
section
/-! SUPPORT. What each shared operation of Machine/Ops.lean can do, said once. -/

namespace Sys2Proof.Machine

/-- A completion event answers the success fields over the rule's writes, or the error fields over the old state. -/
theorem completeWith_eq_next {s t : State} {run : Except CmdError State} :
    s.completeWith run = .next t ↔ (∃ u, run = .ok u ∧ t = u.succeed) ∨ (∃ e, run = .error e ∧ t = s.raise e) := by
  cases run <;> simp [State.completeWith, eq_comm]

@[simp] theorem completeWith_ok (s u : State) : s.completeWith (.ok u) = .next u.succeed := rfl
@[simp] theorem completeWith_error (s : State) (e : CmdError) : s.completeWith (.error e) = .next (s.raise e) := rfl

/-- The addresses of each place of the register map (20_memory.md R57). -/
def Reg.holdsAddr (r : Reg) (a : Nat) : Prop :=
  match r with
  | .cmd => a = 0x00
  | .status => a = 0x01
  | .errcode => a = 0x02
  | .blkLen => a = 0x03
  | .txtLen => a = 0x04
  | .crcL => a = 0x06
  | .crcH => a = 0x07
  | .blk i => a = 0x10 + i.val
  | .txt i => a = 0x20 + i.val
  | .key i => a = 0x40 + i.val
  | .tok i => a = 0x50 + i.val
  | .reserved => a = 0x05 ∨ (0x08 ≤ a ∧ a ≤ 0x0F) ∨ 0x60 ≤ a

theorem byte_eq_iff (a : Byte) (n : Nat) (h : n < 256) : a = BitVec.ofNat 8 n ↔ a.toNat = n := by
  constructor
  · rintro rfl; simp; omega
  · intro e; apply BitVec.eq_of_toNat_eq; simp; omega

theorem decodeAddr_holdsAddr (a : Byte) : (decodeAddr a).holdsAddr a.toNat := by
  have e (n : Nat) (h : n < 256) : (a = (OfNat.ofNat n : Byte)) = (a.toNat = n) := propext (byte_eq_iff a n h)
  unfold decodeAddr
  simp only [e 0 (by omega), e 1 (by omega), e 2 (by omega), e 3 (by omega), e 4 (by omega), e 6 (by omega), e 7 (by omega)]
  repeat' split
  all_goals simp only [Reg.holdsAddr]
  all_goals omega

/-- An address selects one place only. -/
theorem holdsAddr_inj {r r' : Reg} {a : Nat} (h : r.holdsAddr a) (h' : r'.holdsAddr a) : r = r' := by
  cases r <;> cases r' <;> simp only [Reg.holdsAddr] at h h' <;>
    first
    | rfl
    | (exfalso; omega)
    | (congr 1; apply Fin.ext; omega)

theorem decodeAddr_eq_iff {a : Byte} {r : Reg} : decodeAddr a = r ↔ r.holdsAddr a.toNat :=
  ⟨fun h => h ▸ decodeAddr_holdsAddr a, fun h => holdsAddr_inj (decodeAddr_holdsAddr a) h⟩

@[simp] theorem decodeAddr_cmd : decodeAddr 0#8 = .cmd := rfl
@[simp] theorem decodeAddr_status : decodeAddr 1#8 = .status := rfl
@[simp] theorem decodeAddr_errcode : decodeAddr 2#8 = .errcode := rfl
@[simp] theorem decodeAddr_blkLen : decodeAddr 3#8 = .blkLen := rfl
@[simp] theorem decodeAddr_txtLen : decodeAddr 4#8 = .txtLen := rfl
@[simp] theorem decodeAddr_crcL : decodeAddr 6#8 = .crcL := rfl
@[simp] theorem decodeAddr_crcH : decodeAddr 7#8 = .crcH := rfl
theorem decodeAddr_blk (i : Fin 16) : decodeAddr (BitVec.ofNat 8 (0x10 + i.val)) = .blk i :=
  decodeAddr_eq_iff.mpr (by simp [Reg.holdsAddr]; omega)
theorem decodeAddr_txt (i : Fin 32) : decodeAddr (BitVec.ofNat 8 (0x20 + i.val)) = .txt i :=
  decodeAddr_eq_iff.mpr (by simp [Reg.holdsAddr]; omega)
theorem decodeAddr_key (i : Fin 16) : decodeAddr (BitVec.ofNat 8 (0x40 + i.val)) = .key i :=
  decodeAddr_eq_iff.mpr (by simp [Reg.holdsAddr]; omega)
theorem decodeAddr_tok (i : Fin 16) : decodeAddr (BitVec.ofNat 8 (0x50 + i.val)) = .tok i :=
  decodeAddr_eq_iff.mpr (by simp [Reg.holdsAddr]; omega)

/-- What a host write can do (20_memory.md R58). -/
theorem memWrite_cases (s : State) (a v : Byte) :
    (a = 0x01 ∧ s.memWrite a v = s.writeStatus v) ∨
    (a ≠ 0x01 ∧ s.busy = true ∧ s.memWrite a v = s.dropWrite) ∨
    (a ≠ 0x01 ∧ s.busy = false ∧ s.memWrite a v = s.storeReg (decodeAddr a) v) := by
  by_cases ha : a = 0x01
  · have hd : decodeAddr a = .status := decodeAddr_eq_iff.mpr (by rw [ha]; rfl)
    exact .inl ⟨ha, by simp [State.memWrite, hd]⟩
  · have hd : decodeAddr a ≠ .status := fun h => ha ((byte_eq_iff a 1 (by omega)).mpr (decodeAddr_eq_iff.mp h))
    refine .inr ?_
    cases hb : s.busy
    · refine .inr ⟨ha, rfl, ?_⟩
      unfold State.memWrite
      split <;> simp_all
    · refine .inl ⟨ha, rfl, ?_⟩
      unfold State.memWrite
      split <;> simp_all

theorem memWrite_status (s : State) (v : Byte) : s.memWrite 0x01 v = s.writeStatus v := by simp [State.memWrite]

theorem memWrite_busy (s : State) (a v : Byte) (hb : s.busy = true) (ha : a ≠ 0x01) : s.memWrite a v = s.dropWrite := by
  rcases memWrite_cases s a v with ⟨h, -⟩ | ⟨-, -, h⟩ | ⟨-, h, -⟩
  · exact absurd h ha
  · exact h
  · simp [hb] at h

theorem memWrite_idle (s : State) (a v : Byte) (hp : s.pend = none) (ha : a ≠ 0x01) :
    s.memWrite a v = s.storeReg (decodeAddr a) v := by
  rcases memWrite_cases s a v with ⟨h, -⟩ | ⟨-, h, -⟩ | ⟨-, -, h⟩
  · exact absurd h ha
  · simp [hp] at h
  · exact h

/-- What a store to a register place can do: accept a command, clear `OVR`, or change storage registers only. -/
theorem storeReg_cases (s : State) (r : Reg) (v : Byte) :
    (r = .cmd ∧ s.storeReg r v = s.accept v) ∨ (r = .status ∧ s.storeReg r v = s.writeStatus v) ∨
    (r ≠ .cmd ∧ ∃ bl tl ca b t k tk, s.storeReg r v =
      { s with blkLen := bl, txtLen := tl, crcAcc := ca, blk := b, txt := t, key := k, tok := tk }) := by
  cases r
  case cmd => exact .inl ⟨rfl, rfl⟩
  case status => exact .inr (.inl ⟨rfl, rfl⟩)
  all_goals exact .inr (.inr ⟨by simp, _, _, _, _, _, _, _, rfl⟩)

/-- What a host write does to the fields that no storage register is. -/
theorem hostWrite_cases (s : State) (a v : Byte) :
    (s.hostWrite a v = s) ∨ (s.hostWrite a v = { s with ovr := false }) ∨
    (s.inReset = false ∧ s.busy = true ∧ s.hostWrite a v = s.dropWrite) ∨
    (s.inReset = false ∧ s.busy = false ∧ a = 0x00 ∧ s.hostWrite a v = s.accept v) ∨
    (s.inReset = false ∧ s.busy = false ∧ ∃ bl tl ca b t k tk, s.hostWrite a v =
      { s with blkLen := bl, txtLen := tl, crcAcc := ca, blk := b, txt := t, key := k, tok := tk }) := by
  by_cases hr : s.inReset = true
  · exact .inl (by simp [State.hostWrite, hr])
  · have hr' : s.inReset = false := by simpa using hr
    have hw : s.hostWrite a v = s.memWrite a v := by simp [State.hostWrite, hr']
    rw [hw]
    have status : s.writeStatus v = s ∨ s.writeStatus v = { s with ovr := false } := by
      unfold State.writeStatus
      split
      · exact .inr rfl
      · exact .inl rfl
    rcases memWrite_cases s a v with ⟨-, h⟩ | ⟨-, hb, h⟩ | ⟨-, hb, h⟩
    · rw [h]; exact status.elim .inl (.inr ∘ .inl)
    · exact .inr (.inr (.inl ⟨hr', hb, h⟩))
    · rw [h]
      rcases storeReg_cases s (decodeAddr a) v with ⟨hc, h'⟩ | ⟨-, h'⟩ | ⟨-, h'⟩
      · exact .inr (.inr (.inr (.inl ⟨hr', hb, (byte_eq_iff a 0 (by omega)).mpr (decodeAddr_eq_iff.mp hc), h'⟩)))
      · rw [h']; exact status.elim .inl (.inr ∘ .inl)
      · exact .inr (.inr (.inr (.inr ⟨hr', hb, h'⟩)))

/-- Address 0x01 reads `STATUS`. -/
theorem memRead_status (s : State) : s.memRead 0x01 = s.status := rfl

/-- The bit the host polls: bit 0 of `STATUS` is `BUSY`. -/
theorem status_bit0 (s : State) : s.status.getLsbD 0 = s.busy := by
  simp only [State.status, BitVec.getLsbD_append]
  simp

end Sys2Proof.Machine
end

