-- ==== Sys2Proof/Laws/Exec.lean ====
section
/-! SUPPORT. What each command can do, said once per command, and what holds of every command. -/

namespace Sys2Proof.Machine

/-- The result registers of all commands (30_encoding.md R74). -/
def State.writeResults (s : State) (valid : Bool) (blkLen txtLen : Byte) (crcAcc : Half) (blk : Block) (txt : Text)
    (key tok : Block) : State :=
  { s with valid := valid, blkLen := blkLen, txtLen := txtLen, crcAcc := crcAcc, blk := blk, txt := txt, key := key, tok := tok }

theorem execMhEnc_cases (s : State) :
    (s.blkLen.toNat ≤ 16 ∧ execMhEnc s = .next { s with
      txt := overlay s.txt (modHexEncode (s.blk.toList.take s.blkLen.toNat))
      txtLen := BitVec.ofNat 8 (2 * s.blkLen.toNat) }.succeed) ∨
    (16 < s.blkLen.toNat ∧ execMhEnc s = .next (s.raise .malformedInput)) := by
  rcases blkOperand_cases s with ⟨h, e⟩ | ⟨h, e⟩
  · exact .inl ⟨h, by simp [execMhEnc, runMhEnc, e, bind, Except.bind, pure, Except.pure]⟩
  · exact .inr ⟨h, by simp [execMhEnc, runMhEnc, e, bind, Except.bind]⟩

theorem execMhDec_cases (s : State) :
    (s.txtLen.toNat ≤ 32 ∧ ∃ b, modHexDecode (s.txt.toList.take s.txtLen.toNat) = .ok b ∧
      execMhDec s = .next { s with blk := overlay s.blk b, blkLen := BitVec.ofNat 8 (s.txtLen.toNat / 2) }.succeed) ∨
    (s.txtLen.toNat ≤ 32 ∧ ∃ e, modHexDecode (s.txt.toList.take s.txtLen.toNat) = .error e ∧
      execMhDec s = .next (s.raise e)) ∨
    (32 < s.txtLen.toNat ∧ execMhDec s = .next (s.raise .malformedInput)) := by
  rcases txtOperand_cases s with ⟨h, e⟩ | ⟨h, e⟩
  · cases hd : modHexDecode (s.txt.toList.take s.txtLen.toNat) with
    | ok b => exact .inl ⟨h, b, rfl, by simp [execMhDec, runMhDec, e, hd, bind, Except.bind, pure, Except.pure]⟩
    | error x => exact .inr (.inl ⟨h, x, rfl, by simp [execMhDec, runMhDec, e, hd, bind, Except.bind]⟩)
  · exact .inr (.inr ⟨h, by simp [execMhDec, runMhDec, e, bind, Except.bind]⟩)

theorem execMhValid_cases (s : State) :
    (s.txtLen.toNat ≤ 32 ∧ execMhValid s = .next { s with valid := isModHex (s.txt.toList.take s.txtLen.toNat) }.succeed) ∨
    (32 < s.txtLen.toNat ∧ execMhValid s = .next (s.raise .malformedInput)) := by
  rcases txtOperand_cases s with ⟨h, e⟩ | ⟨h, e⟩
  · exact .inl ⟨h, by simp [execMhValid, runMhValid, e, bind, Except.bind, pure, Except.pure]⟩
  · exact .inr ⟨h, by simp [execMhValid, runMhValid, e, bind, Except.bind]⟩

theorem execCrcUpdate_cases (s : State) :
    (s.blkLen.toNat ≤ 16 ∧ execCrcUpdate s = .next { s with crcAcc := crcFold s.crcAcc (s.blk.toList.take s.blkLen.toNat) }.succeed) ∨
    (16 < s.blkLen.toNat ∧ execCrcUpdate s = .next (s.raise .malformedInput)) := by
  rcases blkOperand_cases s with ⟨h, e⟩ | ⟨h, e⟩
  · exact .inl ⟨h, by simp [execCrcUpdate, runCrcUpdate, e, bind, Except.bind, pure, Except.pure]⟩
  · exact .inr ⟨h, by simp [execCrcUpdate, runCrcUpdate, e, bind, Except.bind]⟩

theorem execCrcCheck_cases (s : State) :
    (2 ≤ s.blkLen.toNat ∧ s.blkLen.toNat ≤ 16 ∧
      execCrcCheck s = .next { s with valid := crcOk (s.blk.toList.take s.blkLen.toNat) }.succeed) ∨
    ((s.blkLen.toNat < 2 ∨ 16 < s.blkLen.toNat) ∧ execCrcCheck s = .next (s.raise .malformedInput)) := by
  rcases crcOperand_cases s with ⟨h, h', e⟩ | ⟨h, e⟩
  · exact .inl ⟨h, h', by simp [execCrcCheck, runCrcCheck, e, bind, Except.bind, pure, Except.pure]⟩
  · exact .inr ⟨h, by simp [execCrcCheck, runCrcCheck, e, bind, Except.bind]⟩

theorem execTokUnpack_cases (s : State) :
    (s.blkLen = 16 ∧ execTokUnpack s = .next { s with tok := s.blk }.succeed) ∨
    (s.blkLen ≠ 16 ∧ execTokUnpack s = .next (s.raise .malformedInput)) := by
  rcases blockOperand_cases s with ⟨h, e⟩ | ⟨h, e⟩
  · exact .inl ⟨h, by simp [execTokUnpack, runTokUnpack, e, bind, Except.bind, pure, Except.pure]⟩
  · exact .inr ⟨h, by simp [execTokUnpack, runTokUnpack, e, bind, Except.bind]⟩

theorem execAesEnc_cases (s : State) :
    (s.blkLen = 16 ∧ execAesEnc s = .next { s with blk := aesEncrypt s.key s.blk }.succeed) ∨
    (s.blkLen ≠ 16 ∧ execAesEnc s = .next (s.raise .malformedInput)) := by
  rcases blockOperand_cases s with ⟨h, e⟩ | ⟨h, e⟩
  · exact .inl ⟨h, by simp [execAesEnc, runAesEnc, e, bind, Except.bind, pure, Except.pure]⟩
  · exact .inr ⟨h, by simp [execAesEnc, runAesEnc, e, bind, Except.bind]⟩

theorem execAesDec_cases (s : State) :
    (s.blkLen = 16 ∧ execAesDec s = .next { s with blk := aesDecrypt s.key s.blk }.succeed) ∨
    (s.blkLen ≠ 16 ∧ execAesDec s = .next (s.raise .malformedInput)) := by
  rcases blockOperand_cases s with ⟨h, e⟩ | ⟨h, e⟩
  · exact .inl ⟨h, by simp [execAesDec, runAesDec, e, bind, Except.bind, pure, Except.pure]⟩
  · exact .inr ⟨h, by simp [execAesDec, runAesDec, e, bind, Except.bind]⟩

theorem execParse_cases (s : State) :
    (s.txtLen = 32 ∧ ∃ b, modHexDecode s.txt.toList = .ok b ∧ crcOk (aesDecrypt s.key (blockOf b)).toList = true ∧
      execParse s = .next { s with tok := aesDecrypt s.key (blockOf b) }.succeed) ∨
    (s.txtLen = 32 ∧ ∃ b, modHexDecode s.txt.toList = .ok b ∧ crcOk (aesDecrypt s.key (blockOf b)).toList = false ∧
      execParse s = .next (s.raise .checksumMismatch)) ∨
    (s.txtLen = 32 ∧ ∃ e, modHexDecode s.txt.toList = .error e ∧ execParse s = .next (s.raise e)) ∨
    (s.txtLen ≠ 32 ∧ execParse s = .next (s.raise .invalidEncoding)) := by
  rcases otpOperand_cases s with ⟨h, e⟩ | ⟨h, e⟩
  · cases hd : modHexDecode s.txt.toList with
    | ok b =>
      cases hc : crcOk (aesDecrypt s.key (blockOf b)).toList with
      | true => exact .inl ⟨h, b, rfl, hc, by simp [execParse, runParse, e, hd, hc, bind, Except.bind, pure, Except.pure]⟩
      | false => exact .inr (.inl ⟨h, b, rfl, hc, by
          simp [execParse, runParse, e, hd, hc, bind, Except.bind, throw, throwThe, MonadExceptOf.throw]⟩)
    | error x => exact .inr (.inr (.inl ⟨h, x, rfl, by simp [execParse, runParse, e, hd, bind, Except.bind]⟩))
  · exact .inr (.inr (.inr ⟨h, by simp [execParse, runParse, e, bind, Except.bind]⟩))

/-- Every command completes: with an error and no other write, or with its result registers and the success fields. -/
theorem exec_completes (i : Instr) (s : State) :
    (∃ e, exec i s = .next (s.raise e)) ∨
    (∃ v bl tl ca b t k tk, exec i s = .next (s.writeResults v bl tl ca b t k tk).succeed) := by
  cases i <;> simp only [exec]
  case nop => exact .inr ⟨_, _, _, _, _, _, _, _, rfl⟩
  case mhEnc => exact (execMhEnc_cases s).elim (fun h => .inr ⟨_, _, _, _, _, _, _, _, h.2⟩) (fun h => .inl ⟨_, h.2⟩)
  case mhDec =>
    rcases execMhDec_cases s with ⟨-, _, -, h⟩ | ⟨-, _, -, h⟩ | ⟨-, h⟩
    · exact .inr ⟨_, _, _, _, _, _, _, _, h⟩
    · exact .inl ⟨_, h⟩
    · exact .inl ⟨_, h⟩
  case mhValid => exact (execMhValid_cases s).elim (fun h => .inr ⟨_, _, _, _, _, _, _, _, h.2⟩) (fun h => .inl ⟨_, h.2⟩)
  case crcInit => exact .inr ⟨_, _, _, _, _, _, _, _, rfl⟩
  case crcUpdate => exact (execCrcUpdate_cases s).elim (fun h => .inr ⟨_, _, _, _, _, _, _, _, h.2⟩) (fun h => .inl ⟨_, h.2⟩)
  case crcCheck => exact (execCrcCheck_cases s).elim (fun h => .inr ⟨_, _, _, _, _, _, _, _, h.2.2⟩) (fun h => .inl ⟨_, h.2⟩)
  case tokPack => exact .inr ⟨_, _, _, _, _, _, _, _, rfl⟩
  case tokUnpack => exact (execTokUnpack_cases s).elim (fun h => .inr ⟨_, _, _, _, _, _, _, _, h.2⟩) (fun h => .inl ⟨_, h.2⟩)
  case tokSeal => exact .inr ⟨_, _, _, _, _, _, _, _, rfl⟩
  case aesEnc => exact (execAesEnc_cases s).elim (fun h => .inr ⟨_, _, _, _, _, _, _, _, h.2⟩) (fun h => .inl ⟨_, h.2⟩)
  case aesDec => exact (execAesDec_cases s).elim (fun h => .inr ⟨_, _, _, _, _, _, _, _, h.2⟩) (fun h => .inl ⟨_, h.2⟩)
  case generate => exact .inr ⟨_, _, _, _, _, _, _, _, rfl⟩
  case parse =>
    rcases execParse_cases s with ⟨-, _, -, -, h⟩ | ⟨-, _, -, -, h⟩ | ⟨-, _, -, h⟩ | ⟨-, h⟩
    · exact .inr ⟨_, _, _, _, _, _, _, _, h⟩
    all_goals exact .inl ⟨_, h⟩
  case keyClr => exact .inr ⟨_, _, _, _, _, _, _, _, rfl⟩

/-- A byte is the encoding of the command it decodes to, or an opcode above 0x0E that names none. -/
theorem decode_byte_cases (op : Byte) :
    (∃ i, encodeOp i = op ∧ decode [op] = .ok (i, [])) ∨
    (0x0F ≤ op.toNat ∧ decode [op] = .error (.illegalCommand op)) := by
  have checked : ∀ op : Byte, (match decodeOp op with
      | .ok i => encodeOp i == op
      | .error e => decide (0x0F ≤ op.toNat) && decide (e = .illegalCommand op)) = true := by decide +kernel
  have h := checked op
  cases hd : decodeOp op with
  | ok i => rw [hd] at h; exact .inl ⟨i, by simpa using h, by simp [decode, hd]⟩
  | error e =>
    rw [hd] at h
    simp only [Bool.and_eq_true, decide_eq_true_eq] at h
    exact .inr ⟨h.1, by simp [decode, hd, h.2]⟩

/-- A completion runs the command its opcode selects, or raises `IllegalCommand` for an opcode above 0x0E. -/
theorem complete_cases (op : Byte) (s : State) :
    (∃ i, encodeOp i = op ∧ decode [op] = .ok (i, []) ∧ complete op s = exec i s) ∨
    (0x0F ≤ op.toNat ∧ complete op s = .next (s.raise .illegalCommand)) := by
  rcases decode_byte_cases op with ⟨i, h, h'⟩ | ⟨h, h'⟩
  · exact .inl ⟨i, h, h', by simp [complete, h']⟩
  · exact .inr ⟨h, by simp [complete, h', completeIllegal]⟩

/-- Every completion event answers a next state of one of two shapes. -/
theorem complete_completes (op : Byte) (s : State) :
    (∃ e, complete op s = .next (s.raise e)) ∨
    (∃ v bl tl ca b t k tk, complete op s = .next (s.writeResults v bl tl ca b t k tk).succeed) := by
  rcases complete_cases op s with ⟨i, -, -, h⟩ | ⟨-, h⟩
  · rw [h]; exact exec_completes i s
  · exact .inl ⟨_, h⟩

/-- The registers of `s` with the outside world and the bookkeeping of `o`. -/
def State.withOutside (s o : State) : State :=
  { s with bus := o.bus, rdata := o.rdata, inReset := o.inReset, latLeft := o.latLeft, accepts := o.accepts }

/-- Two states with the same registers differ in the outside world only. -/
theorem eq_withOutside_of_core_eq {s o : State} (h : s.core = o.core) : o = s.withOutside o := by
  cases s; cases o; simp [State.core, State.withOutside] at h ⊢; simp [h]

theorem completeWith_withOutside {run : State → Except CmdError State} {s o t : State}
    (hr : run (s.withOutside o) = (run s).map (·.withOutside o)) (h : s.completeWith (run s) = .next t) :
    (s.withOutside o).completeWith (run (s.withOutside o)) = .next (t.withOutside o) := by
  rw [hr]
  cases hh : run s <;> rw [hh] at h <;> cases h <;> rfl

/-- A command depends on the registers alone (20_memory.md R62, 70_reset_and_hazards.md R252) and leaves the rest alone. -/
theorem exec_withOutside {i : Instr} {s t : State} (o : State) (h : exec i s = .next t) :
    exec i (s.withOutside o) = .next (t.withOutside o) := by
  have blk : (s.withOutside o).blkOperand = s.blkOperand := rfl
  have crc : (s.withOutside o).crcOperand = s.crcOperand := rfl
  have block : (s.withOutside o).blockOperand = s.blockOperand := rfl
  have txt : (s.withOutside o).txtOperand = s.txtOperand := rfl
  have otp : (s.withOutside o).otpOperand = s.otpOperand := rfl
  cases i <;> simp only [exec] at h ⊢
  case mhEnc => exact completeWith_withOutside (by simp only [runMhEnc, blk]; cases s.blkOperand <;> rfl) h
  case mhDec =>
    refine completeWith_withOutside ?_ h
    simp only [runMhDec, txt]
    cases s.txtOperand with
    | error e => rfl
    | ok v => simp only [bind, Except.bind]; cases modHexDecode v <;> rfl
  case mhValid => exact completeWith_withOutside (by simp only [runMhValid, txt]; cases s.txtOperand <;> rfl) h
  case crcUpdate => exact completeWith_withOutside (by simp only [runCrcUpdate, blk]; cases s.blkOperand <;> rfl) h
  case crcCheck => exact completeWith_withOutside (by simp only [runCrcCheck, crc]; cases s.crcOperand <;> rfl) h
  case tokUnpack => exact completeWith_withOutside (by simp only [runTokUnpack, block]; cases s.blockOperand <;> rfl) h
  case aesEnc => exact completeWith_withOutside (by simp only [runAesEnc, block]; cases s.blockOperand <;> rfl) h
  case aesDec => exact completeWith_withOutside (by simp only [runAesDec, block]; cases s.blockOperand <;> rfl) h
  case parse =>
    refine completeWith_withOutside ?_ h
    have key : (s.withOutside o).key = s.key := rfl
    simp only [runParse, otp, key]
    cases s.otpOperand with
    | error e => rfl
    | ok v =>
      simp only [bind, Except.bind]
      cases modHexDecode v with
      | error e => rfl
      | ok c => dsimp only; split <;> rfl
  all_goals cases h; rfl

end Sys2Proof.Machine
end

