-- ==== Sys2Proof/Laws/ModHex.lean ====
section
/-! SUPPORT. What the sequence functions of the ModHex codec do, element by element. -/

namespace Sys2Proof.Machine

/-- The decoder lookup accepts exactly the characters of the alphabet. -/
theorem mem_alphabet_iff (x : Byte) : x ∈ modhexAlphabet ↔ (mhDecChar x).1 = true := by
  have checked : ∀ x : Byte, decide (x ∈ modhexAlphabet) = (mhDecChar x).1 := by decide +kernel
  rw [← checked x, decide_eq_true_iff]

/-- A byte of the encoder's alphabet for every nibble. -/
theorem mhEncNib_mem (n : Nibble) : mhEncNib n ∈ modhexAlphabet := by
  revert n; decide

theorem modHexEncode_cons (x : Byte) (b : List Byte) :
    modHexEncode (x :: b) = mhEncNib (x.extractLsb' 4 4) :: mhEncNib (x.extractLsb' 0 4) :: modHexEncode b := rfl

@[simp] theorem modHexEncode_length (b : List Byte) : (modHexEncode b).length = 2 * b.length := by
  induction b with
  | nil => rfl
  | cons x b ih => simp only [modHexEncode_cons, List.length_cons, ih]; omega

/-- Character `i` of an encoding stands for a nibble of byte `i / 2`, the high one first. -/
theorem modHexEncode_getElem (b : List Byte) (i : Nat) (h : i < (modHexEncode b).length) :
    (modHexEncode b)[i] =
      if i % 2 = 0 then mhEncNib ((b[i / 2]'(by rw [modHexEncode_length] at h; omega)).extractLsb' 4 4)
      else mhEncNib ((b[i / 2]'(by rw [modHexEncode_length] at h; omega)).extractLsb' 0 4) := by
  induction b generalizing i with
  | nil => simp at h
  | cons x b ih =>
    match i with
    | 0 => rfl
    | 1 => rfl
    | i + 2 =>
      simp only [modHexEncode_cons, List.getElem_cons_succ]
      rw [ih]
      simp only [show (i + 2) / 2 = i / 2 + 1 by omega, show (i + 2) % 2 = i % 2 by omega, List.getElem_cons_succ]

@[simp] theorem mhDecPairs_length : ∀ s : List Byte, (mhDecPairs s).length = s.length / 2
  | [] => rfl
  | [_] => by simp [mhDecPairs]
  | _ :: _ :: s => by simp only [mhDecPairs, List.length_cons, mhDecPairs_length s]; omega

/-- Byte `j` of a decoding is the pair of characters `2j` and `2j + 1`. -/
theorem mhDecPairs_getElem : ∀ (s : List Byte) (j : Nat) (h : j < (mhDecPairs s).length),
    (mhDecPairs s)[j] = mhDecPair (s[2 * j]'(by rw [mhDecPairs_length] at h; omega))
      (s[2 * j + 1]'(by rw [mhDecPairs_length] at h; omega))
  | [], _, h => by simp [mhDecPairs] at h
  | [_], _, h => by simp [mhDecPairs] at h
  | _ :: _ :: _, 0, _ => rfl
  | _ :: _ :: s, j + 1, h => by
    simp only [mhDecPairs, List.getElem_cons_succ]
    rw [mhDecPairs_getElem]
    simp [show 2 * (j + 1) = 2 * j + 1 + 1 by omega]

/-- The two nibbles of a decoded pair. -/
theorem mhDecPair_nibbles (hi lo : Byte) :
    (mhDecPair hi lo).extractLsb' 4 4 = (mhDecChar hi).2 ∧ (mhDecPair hi lo).extractLsb' 0 4 = (mhDecChar lo).2 := by
  have checked : ∀ m n : Nibble, (m.setWidth 8 <<< 4 ||| n.setWidth 8 : Byte).extractLsb' 4 4 = m ∧
      (m.setWidth 8 <<< 4 ||| n.setWidth 8 : Byte).extractLsb' 0 4 = n := by decide +kernel
  exact checked _ _

/-- The validity scan of the leading characters of `TXT`. -/
theorem isModHex_take_iff (v : Text) (n : Nat) :
    isModHex (v.toList.take n) = true ↔ ∀ i : Fin 32, i.val < n → v[i] ∈ modhexAlphabet := by
  rw [isModHex, List.all_eq_true]
  constructor
  · intro h i hi
    rw [mem_alphabet_iff]
    apply h
    rw [List.mem_take_iff_getElem]
    exact ⟨i.val, by simp; omega, by simp⟩
  · intro h x hx
    rw [List.mem_take_iff_getElem] at hx
    obtain ⟨i, hi, rfl⟩ := hx
    rw [← mem_alphabet_iff]
    simpa using h ⟨i, by simp at hi; omega⟩ (by simp at hi ⊢; omega)

/-- What `ModHexDecode` can answer. -/
theorem modHexDecode_cases (s : List Byte) :
    (s.length % 2 = 0 ∧ isModHex s = true ∧ modHexDecode s = .ok (mhDecPairs s)) ∨
    ((s.length % 2 = 1 ∨ isModHex s = false) ∧ modHexDecode s = .error .invalidEncoding) := by
  unfold modHexDecode
  split
  · exact .inr ⟨.inl ‹_›, rfl⟩
  · split
    · exact .inl ⟨by omega, ‹_›, rfl⟩
    · rename_i h; exact .inr ⟨.inr (by simpa using h), rfl⟩

end Sys2Proof.Machine
end

