-- ==== Sys2Proof/Laws/PerInstr.lean ====
section
/-! SUPPORT. Statements about every instruction as syntax, one lemma per constructor of `Instr`. -/

namespace Sys2Proof.Laws.EncodingRoundTrip

/-- The instruction is well formed, its encoding is one byte, and decoding that byte at the head of any sequence gives the
instruction and the rest of the sequence (spec/30_encoding.md R70, R72). -/
def Statement (i : Instr) : Prop :=
  i.wellFormed = true ∧ encode i = [encodeOp i] ∧ ∀ rest : List Byte, decode (encode i ++ rest) = .ok (i, rest)

theorem nop : Statement .nop := ⟨rfl, rfl, fun _ => rfl⟩
theorem mhEnc : Statement .mhEnc := ⟨rfl, rfl, fun _ => rfl⟩
theorem mhDec : Statement .mhDec := ⟨rfl, rfl, fun _ => rfl⟩
theorem mhValid : Statement .mhValid := ⟨rfl, rfl, fun _ => rfl⟩
theorem crcInit : Statement .crcInit := ⟨rfl, rfl, fun _ => rfl⟩
theorem crcUpdate : Statement .crcUpdate := ⟨rfl, rfl, fun _ => rfl⟩
theorem crcCheck : Statement .crcCheck := ⟨rfl, rfl, fun _ => rfl⟩
theorem tokPack : Statement .tokPack := ⟨rfl, rfl, fun _ => rfl⟩
theorem tokUnpack : Statement .tokUnpack := ⟨rfl, rfl, fun _ => rfl⟩
theorem tokSeal : Statement .tokSeal := ⟨rfl, rfl, fun _ => rfl⟩
theorem aesEnc : Statement .aesEnc := ⟨rfl, rfl, fun _ => rfl⟩
theorem aesDec : Statement .aesDec := ⟨rfl, rfl, fun _ => rfl⟩
theorem generate : Statement .generate := ⟨rfl, rfl, fun _ => rfl⟩
theorem parse : Statement .parse := ⟨rfl, rfl, fun _ => rfl⟩
theorem keyClr : Statement .keyClr := ⟨rfl, rfl, fun _ => rfl⟩

end Sys2Proof.Laws.EncodingRoundTrip
end

