-- ==== Sys2Proof/Laws/Step.lean ====
section
/-! SUPPORT. What a step can do, said once. -/

namespace Sys2Proof.Machine

/-- A command is due exactly when it is pending, out of reset, with no latency left and no reset at the same point. -/
theorem dueCommand_eq_some {s : State} {op : Byte} :
    s.dueCommand = some op ↔
      s.pend = some op ∧ s.inReset = false ∧ s.latLeft = 0 ∧ s.bus.head? ≠ some .resetAssert := by
  unfold State.dueCommand
  by_cases h : s.inReset = true ∨ s.latLeft ≠ 0 ∨ s.bus.head? = some .resetAssert
  · rw [if_pos h]
    constructor
    · intro e; cases e
    · rintro ⟨-, h1, h2, h3⟩; rcases h with h | h | h <;> simp_all
  · rw [if_neg h]
    simp only [not_or, Bool.not_eq_true, not_not, ne_eq] at h
    exact ⟨fun e => ⟨e, h.1, h.2.1, h.2.2⟩, fun e => e.1⟩

/-- A step is the completion event of a due command, or one bus cycle. -/
theorem step_cases {s t : State} (h : step s = .next t) :
    (∃ op, s.dueCommand = some op ∧ complete op s = .next t) ∨ (s.dueCommand = none ∧ t = s.busCycle) := by
  unfold step at h
  cases hd : s.dueCommand with
  | some op => exact .inl ⟨op, rfl, by simpa [hd] using h⟩
  | none => exact .inr ⟨rfl, by simpa [hd] using h.symm⟩

theorem step_of_due {s : State} {op : Byte} (h : s.dueCommand = some op) : step s = complete op s := by simp [step, h]

theorem step_of_not_due {s : State} (h : s.dueCommand = none) : step s = .next s.busCycle := by simp [step, h]

/-- A bus cycle delivers the head event after a tick; only a `WAIT` may stay at the head of the bus. -/
theorem busCycle_cases (s : State) :
    (s.bus = [] ∧ s.busCycle = s.tick) ∨
    (∃ e rest, s.bus = e :: rest ∧ s.busCycle = { s.tick.deliver e with bus := rest }) ∨
    (∃ rest, s.bus = .wait :: rest ∧ s.busCycle = s.tick.deliver .wait ∧ (s.tick.deliver .wait).rdata.getLsbD 0 = true) := by
  cases hb : s.bus with
  | nil => exact .inl ⟨rfl, by simp [State.busCycle, hb]⟩
  | cons e rest =>
    refine .inr ?_
    by_cases hc : eventConsumed e (s.tick.deliver e).rdata = true
    · exact .inl ⟨e, rest, rfl, by simp [State.busCycle, hb, hc]⟩
    · cases e <;> simp only [eventConsumed, not_true_eq_false, Bool.not_eq_true, Bool.not_eq_false'] at hc
      exact .inr ⟨rest, rfl, by simp [State.busCycle, hb, eventConsumed, hc], hc⟩

/-- What the delivery of one event does to the registers. -/
theorem deliver_core_cases (s : State) (e : BusEvent) :
    e = .resetAssert ∨ (s.deliver e).core = s.core ∨ (∃ b, (s.deliver e).core = { s.core with ovr := b }) ∨
    (∃ v, s.busy = false ∧ s.inReset = false ∧ e = .write 0x00 v ∧ s.deliver e = s.accept v) ∨
    (s.busy = false ∧ ∃ bl tl ca b t k tk, s.deliver e =
      { s with blkLen := bl, txtLen := tl, crcAcc := ca, blk := b, txt := t, key := k, tok := tk }) := by
  cases e with
  | resetAssert => exact .inl rfl
  | read a => exact .inr (.inl rfl)
  | wait => exact .inr (.inl rfl)
  | idle => exact .inr (.inl rfl)
  | resetRelease => exact .inr (.inl rfl)
  | write a v =>
    right
    simp only [State.deliver]
    rcases hostWrite_cases s a v with e | e | ⟨hr, hb, e⟩ | ⟨hr, hb, rfl, e⟩ | ⟨hr, hb, e⟩
    · exact .inl (by rw [e])
    · exact .inr (.inl ⟨false, by rw [e]; rfl⟩)
    · exact .inr (.inl ⟨true, by rw [e]; rfl⟩)
    · exact .inr (.inr (.inl ⟨v, hb, hr, rfl, e⟩))
    · exact .inr (.inr (.inr ⟨hb, e⟩))

/-- What a bus cycle does to the registers: a reset; nothing but `OVR`; an acceptance; or a write to a storage register. -/
theorem busCycle_core_cases (s : State) :
    (∃ r, s.bus = .resetAssert :: r ∧ s.busCycle.core = State.reset.core) ∨ (∃ b, s.busCycle.core = {s.core with ovr := b}) ∨ 
   (∃ v, s.busy = false ∧ s.busCycle.core = (s.accept v).core) ∨
   (s.busy = false ∧ ∃ bl tl ca b t k tk, s.busCycle.core =
      { s.core with blkLen := bl, txtLen := tl, crcAcc := ca, blk := b, txt := t, key := k, tok := tk }) := by
  rcases busCycle_cases s with ⟨-, e⟩ | ⟨e, rest, he, e'⟩ | ⟨rest, -, e', -⟩
  · exact .inr (.inl ⟨s.ovr, by rw [e, tick_core]; rfl⟩)
  · rcases deliver_core_cases s.tick e with rfl | h | ⟨b, h⟩ | ⟨v, hb, -, -, h⟩ | ⟨hb, bl, tl, ca, b, t, k, tk, h⟩
    · exact .inl ⟨rest, he, by rw [e']; rfl⟩
    · exact .inr (.inl ⟨s.ovr, by rw [e']; exact h.trans (by rw [tick_core]; rfl)⟩)
    · exact .inr (.inl ⟨b, by rw [e']; exact h.trans (by rw [tick_core])⟩)
    · refine .inr (.inr (.inl ⟨v, by simpa using hb, ?_⟩))
      rw [e']; show (s.tick.deliver e).core = _; rw [h]; simp
    · refine .inr (.inr (.inr ⟨by simpa using hb, bl, tl, ca, b, t, k, tk, ?_⟩))
      rw [e']; show (s.tick.deliver e).core = _; rw [h]; simp [State.core]
  · exact .inr (.inl ⟨s.ovr, by rw [e']; exact (tick_core s).trans rfl⟩)

end Sys2Proof.Machine
end

