-- ==== Sys2Proof/Laws/Run.lean ====
section
/-! SUPPORT. Several steps in a row. -/

namespace Sys2Proof.Machine

@[simp] theorem run_zero (s : State) : run 0 s = .next s := rfl

/-- The first of several steps. -/
theorem run_succ {s t : State} (h : step s = .next t) (n : Nat) : run (n + 1) s = run n t := by simp [run, h]

/-- Every step answers a next state. -/
theorem step_completes (s : State) : ∃ t, step s = .next t := by
  unfold step
  cases s.dueCommand with
  | none => exact ⟨_, rfl⟩
  | some op => rcases complete_completes op s with ⟨e, h⟩ | ⟨_, _, _, _, _, _, _, _, h⟩ <;> exact ⟨_, h⟩

/-- A run cut in two. -/
theorem run_add (n m : Nat) {s t : State} (h : run n s = .next t) : run (n + m) s = run m t := by
  induction n generalizing s with
  | zero => simp only [run_zero, Host.Outcome.next.injEq] at h; simp [h]
  | succ n ih =>
    obtain ⟨u, hu⟩ := step_completes s
    rw [run_succ hu] at h
    rw [show n + 1 + m = (n + m) + 1 by omega, run_succ hu]
    exact ih h

/-- `run` is the host's run of this machine. -/
theorem run_eq_core_run (n : Nat) (s : State) : run n s = Host.Core.run Sys2Proof.core n s := by
  induction n generalizing s with
  | zero => rfl
  | succ n ih =>
    obtain ⟨t, h⟩ := step_completes s
    have hc : Host.Core.run Sys2Proof.core (n + 1) s = Host.Core.run Sys2Proof.core n t := by
      have hs : Sys2Proof.core.step s = Host.Outcome.next t := h
      refine (Host.Core.run.eq_2 Sys2Proof.core s n).trans ?_
      rw [hs]
    exact (run_succ h n).trans ((ih t).trans hc.symm)

end Sys2Proof.Machine
end

