-- ==== Sys2Proof/Tests/Slice0.lean ====
section
/-! SUPPORT. Tests of the model on fixed values, and a witness for every statement that has hypotheses. The expected values
are those of spec/30_encoding.md R72 and spec/95_test_vectors.md; each test names its vector. -/

namespace Sys2Proof.Tests

/- One theorem at a time: the kernel evaluations below would otherwise hold many threads and much memory at once. -/
set_option Elab.async false

open Sys2Proof Sys2Proof.Machine

/-! ### Decoding: the words of R72 and opcode_table.json, written out -/

theorem test_decode_nop : decode [0b00000000] = .ok (.nop, []) := rfl
theorem test_decode_mhEnc : decode [0b00000001] = .ok (.mhEnc, []) := rfl
theorem test_decode_mhDec : decode [0b00000010] = .ok (.mhDec, []) := rfl
theorem test_decode_mhValid : decode [0b00000011] = .ok (.mhValid, []) := rfl
theorem test_decode_crcInit : decode [0b00000100] = .ok (.crcInit, []) := rfl
theorem test_decode_crcUpdate : decode [0b00000101] = .ok (.crcUpdate, []) := rfl
theorem test_decode_crcCheck : decode [0b00000110] = .ok (.crcCheck, []) := rfl
theorem test_decode_tokPack : decode [0b00000111] = .ok (.tokPack, []) := rfl
theorem test_decode_tokUnpack : decode [0b00001000] = .ok (.tokUnpack, []) := rfl
theorem test_decode_tokSeal : decode [0b00001001] = .ok (.tokSeal, []) := rfl
theorem test_decode_aesEnc : decode [0b00001010] = .ok (.aesEnc, []) := rfl
theorem test_decode_aesDec : decode [0b00001011] = .ok (.aesDec, []) := rfl
theorem test_decode_generate : decode [0b00001100] = .ok (.generate, []) := rfl
theorem test_decode_parse : decode [0b00001101] = .ok (.parse, []) := rfl
theorem test_decode_keyClr : decode [0b00001110] = .ok (.keyClr, []) := rfl
theorem test_decode_first_illegal : decode [0b00001111] = .error (.illegalCommand 0x0F) := rfl
theorem test_decode_last_illegal : decode [0b11111111] = .error (.illegalCommand 0xFF) := rfl
theorem test_decode_no_byte : decode [] = .error .noByte := rfl
theorem test_decode_high_bit_matters : decode [0b10000001] = .error (.illegalCommand 0x81) := rfl
theorem test_decodeTableWord : decodeTableWord 8 0x0D = some .parse := by decide
theorem test_decodeTableWord_illegal : decodeTableWord 8 0x0F = none := by decide
theorem test_decodeTableWord_leftover : decodeTableWord 16 0x0D = none := by decide
/-- No two rows of the opcode map overlap. -/
theorem test_rows_disjoint :
    opcodeTable.Pairwise (fun a b => a.pattern &&& (a.mask &&& b.mask) ≠ b.pattern &&& (a.mask &&& b.mask)) := by decide

/-! ### WellFormed: an ill-formed line for each check -/

theorem test_wf_instr (i : Instr) : i.wellFormed = true := rfl
theorem test_wf_wrn_past_end : (HostLine.wrn 0xFF [0x00, 0x00]).wellFormed = false := by decide
theorem test_wf_wrn_at_end : (HostLine.wrn 0xFE [0x00, 0x00]).wellFormed = true := by decide
theorem test_wf_wrs_not_ascii : (HostLine.wrs 0x20 "é").wellFormed = false := by decide
theorem test_wf_wrs_past_end : (HostLine.wrs 0xFF "cc").wellFormed = false := by decide
theorem test_wf_loadKey_short : (HostLine.loadKey [0x00]).wellFormed = false := by decide

/-! ### One step from a small state -/

/-- Bytes written as a hexadecimal number, the first byte in its top bits. -/
def bytesOf (n : Nat) (x : Nat) : List Byte := (List.range n).map (fun i => BitVec.ofNat 8 (x / 256 ^ (n - 1 - i)))

/-- A block written as a hexadecimal number. -/
def block (x : Nat) : Block := blockOf (bytesOf 16 x)

/-- The characters of a string as the bytes of `TXT`. -/
def chars (l : List Char) : Text := overlay (Vector.replicate 32 0x00) (l.map (fun a => BitVec.ofNat 8 a.toNat))

/-- The state after the step that runs opcode `op` next, from `s`. -/
def after (op : Nat) (s : State) : Option State :=
  match step (s.withFetchWord 8 op) with
  | .next t => some t
  | .fault _ => none
  | .refused _ => none

def key5 : Block := block 0xecde18dbe76fbd0c33330f1c354871db
def token8 : Block := block 0x8792ebfe26cc130030c20011c89f23c8
def token5 : Block := block 0x8792ebfe26cc1300a8c00010b4086f5b
def otp5 : List Char :=
  ['d', 'c', 'f', 'l', 'c', 'i', 'n', 'd', 'v', 'd', 'b', 'r', 'b', 'l', 'e', 'h',
   'e', 'c', 'u', 'i', 't', 'v', 'j', 'k', 'j', 'e', 'v', 'v', 'e', 'h', 'j', 'd']

/-- V-L2-CTL-1. -/
theorem test_nop : (after 0x00 { State.reset with errcode := 0x03 }).map (fun t => (t.errcode, t.status)) =
    some (0x00, 0x02) := by decide +kernel
/-- V-L2-MH-3. -/
theorem test_mhEnc : (after 0x01 { State.reset with blkLen := 5, blk := block 0x5a0ff012890000000000000000000000 }).map
    (fun t => (t.txtLen, t.txt)) = some (10, chars ['g', 'l', 'c', 'v', 'v', 'c', 'b', 'd', 'j', 'k']) := by decide +kernel
/-- V-L2-MH-7. -/
theorem test_mhEnc_long : (after 0x01 { State.reset with blkLen := 17 }).map (fun t => (t.errcode, t.status, t.txtLen)) =
    some (0x02, 0x06, 0x00) := by decide +kernel
/-- V-L2-MH-9. -/
theorem test_mhDec : (after 0x02 { State.reset with txtLen := 32, txt := chars otp5 }).map (fun t => (t.blkLen, t.blk)) =
    some (16, block 0x204a07b2f21c1a3630e7df8983ff3682) := by decide +kernel
/-- V-L2-MH-14: the length is checked before the parity. -/
theorem test_mhDec_order : (after 0x02 { State.reset with txtLen := 33, txt := chars ['c', 'c'] }).map
    (fun t => (t.errcode, t.blkLen)) = some (0x02, 0x00) := by decide +kernel
/-- V-L2-MH-17. -/
theorem test_mhValid : (after 0x03 { State.reset with
    txtLen := 8, txt := chars ['0', '1', '2', '3', 'X', 'a', 'b', 'c'], valid := true }).map
    (fun t => (t.valid, t.status)) = some (false, 0x02) := by decide +kernel
/-- V-L2-MH-22: only the first `TXT_LEN` characters are examined. -/
theorem test_mhValid_odd : (after 0x03 { State.reset with txtLen := 3, txt := chars ['c', 'b', 'd', 'X'] }).map
    (fun t => (t.valid, t.status)) = some (true, 0x0A) := by decide +kernel
/-- V-L2-CRC-1. -/
theorem test_crcInit : (after 0x04 { State.reset with crcAcc := 0x1234 }).map (·.crcAcc) = some 0xFFFF := by decide +kernel
/-- V-L2-CRC-10. -/
theorem test_crcUpdate : (after 0x05 { State.reset with
    blkLen := 1, blk := block 0x39000000000000000000000000000000, crcAcc := 0xF795 }).map (·.crcAcc) =
    some 0x6F91 := by decide +kernel
/-- V-L2-CRC-12. -/
theorem test_crcCheck : (after 0x06 { State.reset with blkLen := 16, blk := token8 }).map (fun t => (t.valid, t.crcAcc)) =
    some (true, 0xFFFF) := by decide +kernel
/-- V-L2-CRC-16. -/
theorem test_crcCheck_short : (after 0x06 { State.reset with blkLen := 1, valid := true }).map
    (fun t => (t.errcode, t.status)) = some (0x02, 0x0E) := by decide +kernel
/-- V-L2-TOK-1. -/
theorem test_tokPack : (after 0x07 { State.reset with blkLen := 3, tok := token8 }).map (fun t => (t.blkLen, t.blk)) =
    some (16, token8) := by decide +kernel
/-- V-L2-TOK-3. -/
theorem test_tokUnpack : (after 0x08 { State.reset with blkLen := 16, blk := block 0x16e1e5d9d39981ab452007e302006d80 }).map
    (fun t => (t.status, tokenCounter t.tok)) = some (0x12, 0xAB81) := by decide +kernel
/-- V-L2-TOK-11. -/
theorem test_tokSeal : (after 0x09 { State.reset with tok := block 0x8792ebfe26cc130030c20011c89f1234 }).map (·.tok) =
    some token8 := by decide +kernel
/-- V-L2-AES-3. -/
theorem test_aesEnc : (after 0x0A { State.reset with blkLen := 16 }).map (·.blk) =
    some (block 0x66e94bd4ef8a2c3b884cfa59ca342b2e) := by decide +kernel
/-- V-L2-AES-5. -/
theorem test_aesDec : (after 0x0B { State.reset with
    blkLen := 16, key := key5, blk := block 0x204a07b2f21c1a3630e7df8983ff3682 }).map (·.blk) = some token5 := by
  decide +kernel
/-- V-L2-OTP-14. -/
theorem test_generate : (after 0x0C { State.reset with key := key5, tok := token5 }).map (fun t => (t.txtLen, t.txt)) =
    some (32, chars otp5) := by decide +kernel
/-- V-L2-OTP-4. -/
theorem test_parse : (after 0x0D { State.reset with txtLen := 32, txt := chars otp5, key := key5 }).map
    (fun t => (t.errcode, t.tok)) = some (0x00, token5) := by decide +kernel
/-- V-L2-OTP-7. -/
theorem test_parse_long : (after 0x0D { State.reset with txtLen := 33, txt := chars otp5 }).map (fun t => (t.errcode, t.status)) =
    some (0x01, 0x06) := by decide +kernel
/-- V-L2-CTL-2. -/
theorem test_keyClr : (after 0x0E { State.reset with key := key5 }).map (·.key) = some (Vector.replicate 16 0x00) := by
  decide +kernel
/-- V-L2-CTL-3. -/
theorem test_illegal : (after 0x0F { State.reset with blkLen := 2 }).map (fun t => (t.errcode, t.status)) =
    some (0x04, 0x06) := by decide +kernel

/-! ### The register bus -/

/-- V-L2-BUS-1. -/
theorem test_reset_reads : (List.range 8).map (fun a => State.reset.memRead (BitVec.ofNat 8 a)) =
    [0x00, 0x00, 0x00, 0x00, 0x00, 0x00, 0xFF, 0xFF] := by decide +kernel
/-- V-L2-BUS-2. -/
theorem test_key_reads_zero : ((State.reset.memWrite 0x40 0xEC).key[0], (State.reset.memWrite 0x40 0xEC).memRead 0x40) =
    (0xEC, 0x00) := by decide +kernel
/-- `CRC_ACC` is little-endian on the bus (20_memory.md R51). -/
theorem test_crc_bytes : ((State.reset.memWrite 0x06 0x34).memWrite 0x07 0x12).crcAcc = 0x1234 := by decide +kernel
/-- A read returns the byte to the host (20_memory.md R55). -/
theorem test_read_step : step { State.reset with bus := [.read 0x07] } = .next { State.reset with rdata := 0xFF } := rfl
/-- The `WAIT` loop stays while `BUSY` is 1 (30_encoding.md R82). -/
theorem test_wait_stays : step { State.reset with pend := some 0x00, latLeft := 1, bus := [.wait] } =
    .next { State.reset with pend := some 0x00, latLeft := 0, bus := [.wait], rdata := 0x01 } := rfl

/-! ### Witnesses: a state and operands that meet the hypotheses of each statement -/

/-- A pending command `op` with `n` bus cycles to go and the events `bus` to come. -/
def pendingState (op : Byte) (n : Nat) (bus : List BusEvent) : State :=
  { State.reset with cmd := op, pend := some op, latLeft := n, bus := bus }

theorem witness_DecodeEncodeAgree : decode [0x0E] = .ok (.keyClr, []) := rfl
theorem witness_IllegalOpcodeCompletes :
    0x0F ≤ (0x0F : Byte).toNat ∧ 0x0F ≤ (0xFF : Byte).toNat ∧ State.reset.pend = none ∧
    (pendingState 0x0F 0 []).dueCommand = some 0x0F ∧ (pendingState 0xFF 0 []).dueCommand = some 0xFF := by decide
theorem witness_ResetEvent :
    (pendingState 0x01 0 [.resetAssert, .idle]).bus = .resetAssert :: [.idle] ∧
    ({ State.reset with inReset := true, bus := [.read 0x06] }.inReset = true ∧
      ({ State.reset with inReset := true, bus := [.read 0x06] } : State).bus = .read 0x06 :: []) ∧
    ({ State.reset with inReset := true, bus := [.write 0x00 0x01] } : State).bus = .write 0x00 0x01 :: [] ∧
    (({ State.reset with inReset := true, bus := [.resetRelease, .write 0x00 0x00] } : State).bus =
      .resetRelease :: .write 0x00 0x00 :: [] ∧
      ({ State.reset with inReset := true, bus := [.resetRelease, .write 0x00 0x00] } : State).pend = none) := by decide
theorem witness_StepRunsPendingCommand :
    (pendingState 0x04 0 [.idle]).pend = some 0x04 ∧ (pendingState 0x04 0 [.idle]).inReset = false ∧
    (pendingState 0x04 0 [.idle]).latLeft = 0 ∧ (pendingState 0x04 0 [.idle]).bus.head? ≠ some .resetAssert ∧
    decode [0x04] = .ok (.crcInit, []) := ⟨rfl, rfl, rfl, by decide, rfl⟩
theorem witness_StepKeepsInvariant :
    (pendingState 0x04 0 []).Inv ∧ ∃ t, step (pendingState 0x04 0 []) = .next t := by
  refine ⟨⟨by decide, ?_, by decide, by decide, by decide⟩, _, rfl⟩
  intro op h
  exact ⟨Option.some.inj h, rfl⟩
theorem witness_ReadTransactionChangesNoRegister :
    (pendingState 0x05 1 [.read 0x06]).dueCommand = none ∧ (pendingState 0x05 1 [.read 0x06]).bus = .read 0x06 :: [] ∧
    ({ State.reset with bus := [.read 0xFF] } : State).dueCommand = none := by decide
theorem witness_CmdRegister :
    ({ State.reset with bus := [.write 0x00 0x0D] }.inReset = false ∧
      ({ State.reset with bus := [.write 0x00 0x0D] } : State).pend = none ∧
      ({ State.reset with bus := [.write 0x00 0x0D] } : State).bus = .write 0x00 0x0D :: []) ∧
    ((pendingState 0x05 2 [.write 0x00 0x01]).inReset = false ∧ (pendingState 0x05 2 [.write 0x00 0x01]).busy = true ∧
      (pendingState 0x05 2 [.write 0x00 0x01]).dueCommand = none) ∧
    (pendingState 0x0F 0 []).dueCommand = some 0x0F := by decide
theorem witness_StatusRegister : (0x20 : Byte).getLsbD 5 = true ∧ (0xDF : Byte).getLsbD 5 = false := by decide
theorem witness_RegisterMapReads :
    (0x08 ≤ (0x08 : Byte).toNat ∧ (0x08 : Byte).toNat ≤ 0x0F) ∧ (0x08 ≤ (0x0F : Byte).toNat ∧ (0x0F : Byte).toNat ≤ 0x0F) ∧
    0x60 ≤ (0x60 : Byte).toNat ∧ 0x60 ≤ (0xFF : Byte).toNat := by decide
theorem witness_StorageWriteReadsBack :
    State.reset.pend = none ∧ (0x10 ≤ (0x10 : Byte).toNat ∧ (0x10 : Byte).toNat ≤ 0x3F) ∧
    (0x10 ≤ (0x3F : Byte).toNat ∧ (0x3F : Byte).toNat ≤ 0x3F) ∧ (0x50 ≤ (0x50 : Byte).toNat ∧ (0x50 : Byte).toNat ≤ 0x5F) ∧
    (0x50 ≤ (0x5F : Byte).toNat ∧ (0x5F : Byte).toNat ≤ 0x5F) ∧ (0x10 : Byte) ≠ 0x5F ∧ (0x10 : Byte) ≠ 0x01 := by decide
theorem witness_KeyWriteStoresAndReadsZero : State.reset.pend = none ∧ (0 : Fin 16) ≠ 15 := by decide
theorem witness_ReservedAddresses :
    State.reset.pend = none ∧ (pendingState 0x01 3 []).pend = some 0x01 ∧
    (0x08 ≤ (0x08 : Byte).toNat ∧ (0x08 : Byte).toNat ≤ 0x0F) ∧ (0x08 ≤ (0x0F : Byte).toNat ∧ (0x0F : Byte).toNat ≤ 0x0F) ∧
    0x60 ≤ (0x60 : Byte).toNat ∧ 0x60 ≤ (0xFF : Byte).toNat := by decide
theorem witness_BusyDropsWrites :
    (pendingState 0x01 3 []).pend = some 0x01 ∧ (0x00 : Byte) ≠ 0x01 ∧ (0xFF : Byte) ≠ 0x01 := by decide
theorem witness_OperandsFixedWhileBusy :
    ∃ t, (pendingState 0x01 1 [.write 0x10 0xAA]).pend = some 0x01 ∧
      step (pendingState 0x01 1 [.write 0x10 0xAA]) = .next t ∧ t.pend = some 0x01 := ⟨_, rfl, rfl, rfl⟩
theorem witness_ErrcodeChangesOnlyAtCompletionOrReset :
    State.reset.pend = none ∧
    ∃ t, step (pendingState 0x0F 0 []) = .next t ∧ t.errcode ≠ (pendingState 0x0F 0 []).errcode := ⟨rfl, _, rfl, by decide⟩
theorem witness_ValidWrittenOnlyByChecks :
    ∃ t, step (pendingState 0x03 0 []) = .next t ∧ t.valid ≠ (pendingState 0x03 0 []).valid := ⟨_, rfl, by decide⟩
theorem witness_KeyIsOpaque :
    ∃ t, { pendingState 0x01 1 [.read 0x40] with key := ({ pendingState 0x01 1 [.read 0x40] with key := key5 } : State).key } =
        { pendingState 0x01 1 [.read 0x40] with key := key5 } ∧
      (∀ op, (pendingState 0x01 1 [.read 0x40]).dueCommand = some op → readsKey op = false) ∧
      step (pendingState 0x01 1 [.read 0x40]) = .next t := ⟨_, rfl, fun op h => by simp [pendingState, State.dueCommand] at h, rfl⟩
theorem witness_PendingCommandCompletes :
    (pendingState 0x0C 2 [.write 0x50 0x01, .wait]).pend = some 0x0C ∧
    (pendingState 0x0C 2 [.write 0x50 0x01, .wait]).inReset = false ∧
    BusEvent.resetAssert ∉ (pendingState 0x0C 2 [.write 0x50 0x01, .wait]).bus := by decide
theorem witness_CanonicalProtocolCompletes :
    ({ State.reset with bus := [.write 0x00 0x09, .wait, .read 0x02] } : State).inReset = false ∧
    ({ State.reset with bus := [.write 0x00 0x09, .wait, .read 0x02] } : State).pend = none ∧
    ({ State.reset with bus := [.write 0x00 0x09, .wait, .read 0x02] } : State).bus =
      .write 0x00 0x09 :: .wait :: [.read 0x02] := by decide
theorem witness_CompletionIndependentOfSchedule :
    ∃ t, (pendingState 0x04 0 []).core = (pendingState 0x04 3 [.idle]).core ∧
      exec .crcInit (pendingState 0x04 0 []) = .next t := ⟨_, rfl, rfl⟩
theorem witness_CompletionFields : ∃ t, complete 0x0E (pendingState 0x0E 0 []) = .next t := ⟨_, rfl⟩
theorem witness_FailureIsAtomic : ∃ t, complete 0x0F (pendingState 0x0F 0 []) = .next t ∧ t.errcode ≠ 0x00 :=
  ⟨_, rfl, by decide⟩
theorem witness_ErrorTable :
    (∃ t, exec .mhEnc { State.reset with blkLen := 17 } = .next t) ∧
    (∃ t, complete 0x0F State.reset = .next t) ∧ (∃ t, complete 0xFF State.reset = .next t) := ⟨⟨_, rfl⟩, ⟨_, rfl⟩, ⟨_, rfl⟩⟩
theorem witness_ModHexLookups : (mhDecChar 0x61).1 = false ∧ (mhDecChar 0x76).1 = true := by decide
theorem witness_MhEncResult :
    ({ State.reset with blkLen := 16 } : State).blkLen.toNat ≤ 16 ∧ State.reset.blkLen.toNat ≤ 16 ∧
    16 < ({ State.reset with blkLen := 17 } : State).blkLen.toNat := by decide
/-- A text of 32 modhex characters. -/
def textState : State := { State.reset with txtLen := 32, txt := chars otp5, key := key5 }
theorem witness_MhDecResult :
    (textState.txtLen.toNat ≤ 32 ∧ textState.txtLen.toNat % 2 = 0 ∧
      ∀ i : Fin 32, i.val < textState.txtLen.toNat → textState.txt[i] ∈ modhexAlphabet) ∧
    32 < ({ State.reset with txtLen := 33 } : State).txtLen.toNat ∧
    (({ State.reset with txtLen := 31 } : State).txtLen.toNat ≤ 32 ∧ ({ State.reset with txtLen := 31 } : State).txtLen.toNat % 2 = 1) ∧
    (({ State.reset with txtLen := 2 } : State).txtLen.toNat ≤ 32 ∧
      ∃ i : Fin 32, i.val < ({ State.reset with txtLen := 2 } : State).txtLen.toNat ∧
        ({ State.reset with txtLen := 2 } : State).txt[i] ∉ modhexAlphabet) := by decide +kernel
theorem witness_MhValidResult :
    ({ State.reset with txtLen := 32 } : State).txtLen.toNat ≤ 32 ∧ 32 < ({ State.reset with txtLen := 33 } : State).txtLen.toNat := by decide
theorem witness_ModHexLaws :
    modHexDecode [0x67, 0x6C] = .ok [0x5A] ∧ ({ State.reset with blkLen := 16 } : State).blkLen.toNat ≤ 16 := ⟨rfl, by decide⟩
theorem witness_CrcUpdateResult :
    ({ State.reset with blkLen := 16 } : State).blkLen.toNat ≤ 16 ∧ 16 < ({ State.reset with blkLen := 17 } : State).blkLen.toNat ∧
    State.reset.blkLen.toNat ≤ 16 ∧ State.reset.crcAcc = checksum [] := by decide
theorem witness_CrcCheckResult :
    (2 ≤ ({ State.reset with blkLen := 2 } : State).blkLen.toNat ∧ ({ State.reset with blkLen := 2 } : State).blkLen.toNat ≤ 16) ∧
    (2 ≤ ({ State.reset with blkLen := 16 } : State).blkLen.toNat ∧ ({ State.reset with blkLen := 16 } : State).blkLen.toNat ≤ 16) ∧
    ({ State.reset with blkLen := 1 } : State).blkLen.toNat < 2 ∧ 16 < ({ State.reset with blkLen := 17 } : State).blkLen.toNat := by decide
theorem witness_SingleBitFlipDetected : tokenValid token8 = true := by decide +kernel
theorem witness_FieldWritesThenSealIsFromFields : State.reset.inReset = false ∧ State.reset.pend = none := by decide
theorem witness_BlockOperandResults :
    ({ State.reset with blkLen := 16 } : State).blkLen = 16 ∧ ({ State.reset with blkLen := 15 } : State).blkLen ≠ 16 ∧
    ({ State.reset with blkLen := 17 } : State).blkLen ≠ 16 := by decide
theorem witness_SboxDefinition : (0x53 : Byte) ≠ 0x00 := by decide
theorem witness_KeyScheduleWords : 4 ≤ 4 ∧ 4 ≤ 43 ∧ 43 ≤ 43 ∧ 0 ≤ 10 ∧ 10 ≤ 10 := by decide
/-- The ciphertext that `otp5` stands for. -/
def cipher5 : Block := block 0x204a07b2f21c1a3630e7df8983ff3682
theorem witness_ParseResult_text :
    textState.txtLen = 32 ∧ ∀ i : Fin 16, textState.txt[2 * i.val] = mhEncNib (cipher5[i].extractLsb' 4 4) ∧
      textState.txt[2 * i.val + 1] = mhEncNib (cipher5[i].extractLsb' 0 4) := by decide +kernel
theorem witness_ParseResult_match : checksum (aesDecrypt textState.key cipher5).toList = 0xF0B8 := by decide +kernel
/-- V-L2-OTP-9: the same text under the all-zero key. -/
theorem witness_ParseResult_mismatch :
    checksum (aesDecrypt ({ textState with key := State.reset.key } : State).key cipher5).toList ≠ 0xF0B8 := by decide +kernel
theorem witness_ParseResult_text_error :
    ({ textState with txtLen := 31 } : State).txtLen ≠ 32 ∧ ({ textState with txtLen := 33 } : State).txtLen ≠ 32 ∧
    ∃ i : Fin 32, ({ State.reset with txtLen := 32 } : State).txt[i] ∉ modhexAlphabet := by decide +kernel
theorem witness_CompositeCommandsMatchTheirSteps :
    textState.txtLen = 32 ∧ ∀ i : Fin 32, textState.txt[i] ∈ modhexAlphabet := by decide +kernel
theorem witness_WriteRunExpansion :
    (HostLine.wrn 0xFE [0x01, 0x02]).wellFormed = true ∧ (HostLine.wrn 0x40 (bytesOf 16 0)).wellFormed = true := by decide

end Sys2Proof.Tests
end

/-! The `CMD` register as transactions on the bus (spec/10_state.md R23) and the derived accessors of the token (R34). -/

namespace Sys2Proof.Machine

/-! ### Transactions -/

/-- With no command pending, no completion event is next. -/
theorem dueCommand_of_pend_none {s : State} (hp : s.pend = none) : s.dueCommand = none := by
  cases hd : s.dueCommand with
  | none => rfl
  | some op =>
    obtain ⟨hpend, -⟩ := dueCommand_eq_some.mp hd
    rw [hp] at hpend
    cases hpend

/-- A write transaction that no completion precedes performs `MemWrite` after one cycle of latency and leaves the bus. -/
theorem step_write {s : State} {a v : Byte} {rest : List BusEvent} (hd : s.dueCommand = none)
    (hr : s.inReset = false) (hb : s.bus = .write a v :: rest) :
    step s = .next { s.tick.memWrite a v with bus := rest } := by
  have hw : s.tick.deliver (.write a v) = s.tick.memWrite a v := by simp [State.deliver, State.hostWrite, hr]
  simp [step_of_not_due hd, State.busCycle, hb, eventConsumed, hw]

/-- While nothing is pending, a write to `CMD` is the acceptance of a command (R23). -/
theorem memWrite_cmd_idle {s : State} (v : Byte) (hp : s.pend = none) : s.memWrite 0x00 v = s.accept v :=
  memWrite_idle s 0x00 v hp (by decide)

/-! ### Illegal opcodes -/

theorem encodeOp_toNat_lt (i : Instr) : (encodeOp i).toNat < 0x0F := by
  cases i <;> decide

/-- An opcode above 0x0E completes with `IllegalCommand` (R23, 60_exceptions.md R211). -/
theorem complete_of_illegal {op : Byte} (hop : 0x0F ≤ op.toNat) (s : State) :
    complete op s = .next (s.raise .illegalCommand) := by
  rcases complete_cases op s with ⟨i, rfl, -⟩ | ⟨-, h⟩
  · have hlt := encodeOp_toNat_lt i
    omega
  · exact h

/-! ### The token's accessors -/

theorem tokenCounter_eq_append (t : Block) : tokenCounter t = t[7] ++ t[6] := u16le_eq_append t[6] t[7]

/-- Bit 15 of the counter is the top bit of its high byte. -/
theorem tokenCounter_bit15 (t : Block) : (tokenCounter t).getLsbD 15 = t[7].getLsbD 7 := by
  rw [tokenCounter_eq_append, BitVec.getLsbD_append]
  rfl

/-- Bit 4 of `STATUS` is `CAPSLOCK` (R24). -/
theorem status_bit4 (s : State) : s.status.getLsbD 4 = s.capslock := by
  simp only [State.status, BitVec.getLsbD_append]
  simp

/-! ### The obligations -/

/-- Settles O44: the counter is read as one 16-bit value, whose bit 15 is the view that `STATUS` shows. -/
theorem capslockIsCounterBit : Obligations.CapslockIsCounterBit := by
  intro s
  exact ⟨tokenCounter_eq_append s.tok, (tokenCounter_bit15 s.tok).symm, status_bit4 s⟩

/-- Settles O11, one case per clause: the accepted write, the dropped write, the read, the illegal opcode, reset. -/
theorem cmdRegister : Obligations.CmdRegister := by
  refine ⟨?accepted, ?dropped, fun _ => rfl, ?illegal, rfl⟩
  case accepted =>
    intro s v rest hr hp hb
    refine ⟨_, step_write (dueCommand_of_pend_none hp) hr hb, ?_⟩
    have hw : s.tick.memWrite 0x00 v = s.tick.accept v := memWrite_cmd_idle v (by simp [hp])
    rw [hw]
    exact ⟨by rw [core_with_bus, accept_core, tick_core], rfl, rfl⟩
  case dropped =>
    intro s v rest hr hbusy hd hb
    refine ⟨_, step_write hd hr hb, ?_⟩
    have hw : s.tick.memWrite 0x00 v = s.tick.dropWrite := memWrite_busy _ _ _ (by simp [hbusy]) (by decide)
    rw [hw]
    exact ⟨by rw [core_with_bus, dropWrite_core, tick_core], rfl⟩
  case illegal =>
    intro s op hop hd
    calc step s = complete op s := step_of_due hd
      _ = .next (s.raise .illegalCommand) := complete_of_illegal hop s

end Sys2Proof.Machine

/-! The reserved addresses (spec/20_memory.md R59) and the write-ignoring `ERRCODE` register (R60). -/

namespace Sys2Proof.Machine

/-! ### Reserved addresses -/

/-- The three ranges of R59 select no register. -/
theorem decodeAddr_eq_reserved {a : Byte}
    (ha : a = 0x05 ∨ (0x08 ≤ a.toNat ∧ a.toNat ≤ 0x0F) ∨ 0x60 ≤ a.toNat) : decodeAddr a = .reserved := by
  refine decodeAddr_eq_iff.mpr ?_
  rcases ha with rfl | hrange
  · exact .inl rfl
  · exact .inr hrange

theorem ne_status_of_decodeAddr_reserved {a : Byte} (ha : decodeAddr a = .reserved) : a ≠ 0x01 := by
  rintro rfl
  simp at ha

theorem memRead_reserved (s : State) {a : Byte} (ha : decodeAddr a = .reserved) : s.memRead a = 0x00 := by
  rw [State.memRead, ha]
  rfl

theorem memWrite_reserved_idle {s : State} {a : Byte} (v : Byte) (ha : decodeAddr a = .reserved) (hp : s.pend = none) :
    s.memWrite a v = s :=
  calc s.memWrite a v = s.storeReg (decodeAddr a) v := memWrite_idle s a v hp (ne_status_of_decodeAddr_reserved ha)
    _ = s.storeReg .reserved v := by rw [ha]
    _ = s := rfl

theorem memWrite_reserved_busy {s : State} {a op : Byte} (v : Byte) (ha : decodeAddr a = .reserved)
    (hp : s.pend = some op) : s.memWrite a v = s.dropWrite :=
  memWrite_busy s a v (busy_of_pend_some s op hp) (ne_status_of_decodeAddr_reserved ha)

/-! ### `ERRCODE` -/

theorem memWrite_errcode_idle {s : State} (v : Byte) (hp : s.pend = none) : s.memWrite 0x02 v = s :=
  memWrite_idle s 0x02 v hp (by decide)

/-- Without a reset, no bus cycle writes `ERRCODE`: a host write reaches `OVR`, the fields of an acceptance or a storage
register, and `ERRCODE` is none of these. -/
theorem busCycle_errcode {s : State} (h : s.bus.head? ≠ some .resetAssert) : s.busCycle.errcode = s.errcode := by
  rcases busCycle_core_cases s with ⟨rest, hbus, -⟩ | ⟨_, hcore⟩ | ⟨_, -, hcore⟩ | ⟨-, _, _, _, _, _, _, _, hcore⟩
  case inl => exact absurd (by rw [hbus]; rfl) h
  all_goals exact congrArg CoreState.errcode hcore

/-! ### The obligations -/

/-- Settles O16: the ranges decode to the reserved place, and every step answers a next state whatever the bus holds. -/
theorem reservedAddresses : Obligations.ReservedAddresses := by
  intro a hrange
  have ha : decodeAddr a = .reserved := decodeAddr_eq_reserved hrange
  refine ⟨fun s => memRead_reserved s ha, fun _ v hp => memWrite_reserved_idle v ha hp,
    fun _ v _ hp => memWrite_reserved_busy v ha hp, ?noFault⟩
  case noFault =>
    intro s v
    obtain ⟨t, ht⟩ := step_completes { s with bus := [.read a] }
    obtain ⟨u, hu⟩ := step_completes { s with bus := [.write a v] }
    exact ⟨t, u, ht, hu⟩

/-- Settles O19: a step that is no completion is a bus cycle, and only a reset lets a bus cycle change `ERRCODE`. -/
theorem errcodeChangesOnlyAtCompletionOrReset : Obligations.ErrcodeChangesOnlyAtCompletionOrReset := by
  refine ⟨fun _ v hp => memWrite_errcode_idle v hp, ?change⟩
  case change =>
    intro s t hstep hchange
    rcases step_cases hstep with ⟨op, hdue, -⟩ | ⟨-, rfl⟩
    · exact .inl (by rw [hdue]; rfl)
    · refine .inr ?_
      by_contra hreset
      exact hchange (busCycle_errcode hreset)

end Sys2Proof.Machine

/-! The opcodes that name no command (spec/30_encoding.md R73, spec/45_control.md R202). -/

namespace Sys2Proof.Machine

/-- An opcode above 0x0E is the encoding of no command, so the decoder refuses it by name (R73). -/
theorem decode_of_illegal {op : Byte} (hop : 0x0F ≤ op.toNat) : decode [op] = .error (.illegalCommand op) := by
  rcases decode_byte_cases op with ⟨i, rfl, -⟩ | ⟨-, hrefused⟩
  · have hlt := encodeOp_toNat_lt i
    omega
  · exact hrefused

/-- `CMD` reads back the opcode of an acceptance, whichever opcode it is (R23). -/
theorem memRead_cmd_memWrite_cmd_idle {s : State} (v : Byte) (hp : s.pend = none) :
    (s.memWrite 0x00 v).memRead 0x00 = v := by
  obtain ⟨-, -, readsCmd, -⟩ := cmdRegister
  calc (s.memWrite 0x00 v).memRead 0x00 = (s.memWrite 0x00 v).cmd := readsCmd _
    _ = (s.accept v).cmd := by rw [memWrite_cmd_idle v hp]
    _ = v := accept_cmd s v

/-- Settles O3: only the decoder and the completion tell an illegal opcode from a defined one, the acceptance does not. -/
theorem illegalOpcodeCompletes : Obligations.IllegalOpcodeCompletes := by
  intro op hop
  refine ⟨decode_of_illegal hop, ?accepted, ?completes⟩
  case accepted =>
    intro s hp
    have hcore : (s.memWrite 0x00 op).core = { s.core with cmd := op, pend := some op, done := false } := by
      rw [memWrite_cmd_idle op hp, accept_core]
    exact ⟨hcore, memRead_cmd_memWrite_cmd_idle op hp⟩
  case completes =>
    intro s hd
    obtain ⟨-, -, -, completesIllegal, -⟩ := cmdRegister
    exact completesIllegal s op hop hd

end Sys2Proof.Machine

/-! The ModHex codec (spec/40_modhex.md): the lookups R100 and R101, the sequence functions R102..R104 with their laws
R108, and the commands `MH_ENC`, `MH_DEC` and `MH_VALID`, R105..R107. -/

namespace Sys2Proof.Machine

/-! ### The lookups -/

@[simp] theorem mhDecChar_mhEncNib (n : Nibble) : mhDecChar (mhEncNib n) = (true, n) := by
  revert n
  decide

theorem mhEncNib_mhDecChar {c : Byte} (hc : c ∈ modhexAlphabet) : mhEncNib (mhDecChar c).2 = c := by
  have checked : ∀ c ∈ modhexAlphabet, mhEncNib (mhDecChar c).2 = c := by decide
  exact checked c hc

theorem mhDecChar_nibble_of_invalid {c : Byte} (hc : (mhDecChar c).1 = false) : (mhDecChar c).2 = 0 := by
  unfold mhDecChar at hc ⊢
  cases hfind : modhexAlphabet.findIdx? (· == c) with
  | some i => simp [hfind] at hc
  | none => rfl

theorem mhEncNib_ne_of_invalid {c : Byte} (hc : (mhDecChar c).1 = false) (n : Nibble) : mhEncNib n ≠ c := by
  rintro rfl
  simp at hc

/-- The two characters of a byte stand for that byte: its nibbles cover its eight bits. -/
@[simp] theorem mhDecPair_mhEncNib (x : Byte) :
    mhDecPair (mhEncNib (x.extractLsb' 4 4)) (mhEncNib (x.extractLsb' 0 4)) = x := by
  simp only [mhDecPair, mhDecChar_mhEncNib]
  ext i hi
  simp only [BitVec.getElem_or, BitVec.getElem_shiftLeft, BitVec.getElem_setWidth, BitVec.getLsbD_extractLsb']
  by_cases hlow : i < 4
  · simp [hlow, BitVec.getLsbD_eq_getElem hi]
  · simp [hlow, show i - 4 < 4 by omega, show 4 + (i - 4) = i by omega, BitVec.getLsbD_eq_getElem hi]

/-! ### The sequence functions -/

theorem modHexEncode_append (a b : List Byte) : modHexEncode (a ++ b) = modHexEncode a ++ modHexEncode b :=
  List.flatMap_append

@[simp] theorem isModHex_modHexEncode (b : List Byte) : isModHex (modHexEncode b) = true := by
  induction b with
  | nil => rfl
  | cons x b ih => simpa [modHexEncode_cons, isModHex] using ih

@[simp] theorem mhDecPairs_modHexEncode (b : List Byte) : mhDecPairs (modHexEncode b) = b := by
  induction b with
  | nil => rfl
  | cons x b ih => rw [modHexEncode_cons, mhDecPairs, mhDecPair_mhEncNib, ih]

theorem modHexDecode_eq_ok_iff {s b : List Byte} :
    modHexDecode s = .ok b ↔ s.length % 2 = 0 ∧ isModHex s = true ∧ mhDecPairs s = b := by
  rcases modHexDecode_cases s with ⟨heven, hvalid, h⟩ | ⟨hbad, h⟩
  · simp [h, heven, hvalid]
  · rw [h]
    constructor
    · intro habsurd
      cases habsurd
    · rintro ⟨heven, hvalid, -⟩
      rcases hbad with hodd | hinvalid
      · omega
      · simp [hvalid] at hinvalid

theorem modHexDecode_eq_error {s : List Byte} (h : s.length % 2 = 1 ∨ isModHex s = false) :
    modHexDecode s = .error .invalidEncoding := by
  rcases modHexDecode_cases s with ⟨heven, hvalid, -⟩ | ⟨-, hrefused⟩
  · rcases h with hodd | hinvalid
    · omega
    · simp [hvalid] at hinvalid
  · exact hrefused

/-- The round trip of R108. -/
@[simp] theorem modHexDecode_modHexEncode (b : List Byte) : modHexDecode (modHexEncode b) = .ok b :=
  modHexDecode_eq_ok_iff.mpr ⟨by simp, isModHex_modHexEncode b, mhDecPairs_modHexEncode b⟩

/-- The validity scan of the leading characters of `TXT`, as the `VALID` bit that R107 writes. -/
theorem isModHex_take_eq_decide (v : Text) (n : Nat) :
    isModHex (v.toList.take n) = decide (∀ i : Fin 32, i.val < n → v[i] ∈ modhexAlphabet) := by
  rw [Bool.eq_iff_iff, decide_eq_true_iff]
  exact isModHex_take_iff v n

theorem modHexDecode_take_eq_ok {t : Text} {n : Nat} (hn : n ≤ 32) (heven : n % 2 = 0)
    (halphabet : ∀ i : Fin 32, i.val < n → t[i] ∈ modhexAlphabet) :
    modHexDecode (t.toList.take n) = .ok (mhDecPairs (t.toList.take n)) := by
  have hlen : (t.toList.take n).length = n := by simp [hn]
  exact modHexDecode_eq_ok_iff.mpr ⟨by rw [hlen, heven], (isModHex_take_iff t n).mpr halphabet, rfl⟩

theorem modHexDecode_take_eq_error {t : Text} {n : Nat} (hn : n ≤ 32)
    (hbad : n % 2 = 1 ∨ ∃ i : Fin 32, i.val < n ∧ t[i] ∉ modhexAlphabet) :
    modHexDecode (t.toList.take n) = .error .invalidEncoding := by
  have hlen : (t.toList.take n).length = n := by simp [hn]
  apply modHexDecode_eq_error
  rcases hbad with hodd | ⟨i, hi, houtside⟩
  · exact .inl (by rw [hlen, hodd])
  · refine .inr (Bool.eq_false_iff.mpr fun hvalid => ?_)
    exact houtside ((isModHex_take_iff t n).mp hvalid i hi)

/-! ### The buffers after a result is written -/

/-- A result that fits is read back from the leading part of its buffer. -/
theorem overlay_toList_take {n : Nat} (v : Vector Byte n) (l : List Byte) (h : l.length ≤ n) :
    (overlay v l).toList.take l.length = l := by
  rw [overlay_toList, List.take_take, min_eq_left h, List.take_left]

/-- `TXT` after `m` bytes of `BLK` are encoded into it: two characters per byte, the tail kept. -/
theorem overlay_modHexEncode_getElem (t : Text) (b : Block) {m : Nat} (hm : m ≤ 16) (i : Fin 32) :
    (overlay t (modHexEncode (b.toList.take m)))[i] =
      if i.val < 2 * m then
        if i.val % 2 = 0 then mhEncNib (b[i.val / 2].extractLsb' 4 4) else mhEncNib (b[i.val / 2].extractLsb' 0 4)
      else t[i] := by
  have hlen : (modHexEncode (b.toList.take m)).length = 2 * m := by simp [hm]
  rw [Fin.getElem_fin, overlay_getElem _ _ _ i.isLt]
  by_cases hi : i.val < 2 * m
  · simp [hi, hlen, modHexEncode_getElem]
  · simp [hi, hlen]

/-- `BLK[j]` after `n` characters of `TXT` are decoded into `BLK`, for a byte that the characters reach. -/
theorem overlay_mhDecPairs_getElem_of_lt (b : Block) (t : Text) {n : Nat} (hn : n ≤ 32) (j : Fin 16) (hj : j.val < n / 2) :
    (overlay b (mhDecPairs (t.toList.take n)))[j] = mhDecPair t[2 * j.val] t[2 * j.val + 1] := by
  have hlen : (mhDecPairs (t.toList.take n)).length = n / 2 := by simp [hn]
  rw [Fin.getElem_fin, overlay_getElem _ _ _ j.isLt, dif_pos (by omega), mhDecPairs_getElem]
  simp

/-- The tail of `BLK` that the decoded characters do not reach is kept. -/
theorem overlay_mhDecPairs_getElem_of_ge (b : Block) (t : Text) {n : Nat} (hn : n ≤ 32) (j : Fin 16) (hj : n / 2 ≤ j.val) :
    (overlay b (mhDecPairs (t.toList.take n)))[j] = b[j] := by
  have hlen : (mhDecPairs (t.toList.take n)).length = n / 2 := by simp [hn]
  rw [Fin.getElem_fin, overlay_getElem _ _ _ j.isLt, dif_neg (by omega), Fin.getElem_fin]

/-! ### The commands -/

theorem exec_mhEnc {s : State} (h : s.blkLen.toNat ≤ 16) :
    exec .mhEnc s = .next { s with
      txt := overlay s.txt (modHexEncode (s.blk.toList.take s.blkLen.toNat))
      txtLen := BitVec.ofNat 8 (2 * s.blkLen.toNat) }.succeed := by
  rcases execMhEnc_cases s with ⟨-, hnext⟩ | ⟨hlong, -⟩
  · exact hnext
  · omega

theorem exec_mhEnc_overlong {s : State} (h : 16 < s.blkLen.toNat) :
    exec .mhEnc s = .next (s.raise .malformedInput) := by
  rcases execMhEnc_cases s with ⟨hshort, -⟩ | ⟨-, hnext⟩
  · omega
  · exact hnext

theorem exec_mhDec {s : State} {b : List Byte} (h : s.txtLen.toNat ≤ 32)
    (hb : modHexDecode (s.txt.toList.take s.txtLen.toNat) = .ok b) :
    exec .mhDec s = .next { s with blk := overlay s.blk b, blkLen := BitVec.ofNat 8 (s.txtLen.toNat / 2) }.succeed := by
  rcases execMhDec_cases s with ⟨-, b', hb', hnext⟩ | ⟨-, e, he, -⟩ | ⟨hlong, -⟩
  · cases hb.symm.trans hb'
    exact hnext
  · cases hb.symm.trans he
  · omega

theorem exec_mhDec_refused {s : State} {e : CmdError} (h : s.txtLen.toNat ≤ 32)
    (he : modHexDecode (s.txt.toList.take s.txtLen.toNat) = .error e) : exec .mhDec s = .next (s.raise e) := by
  rcases execMhDec_cases s with ⟨-, b, hb, -⟩ | ⟨-, e', he', hnext⟩ | ⟨hlong, -⟩
  · cases he.symm.trans hb
  · cases he.symm.trans he'
    exact hnext
  · omega

theorem exec_mhDec_overlong {s : State} (h : 32 < s.txtLen.toNat) :
    exec .mhDec s = .next (s.raise .malformedInput) := by
  rcases execMhDec_cases s with ⟨hshort, -⟩ | ⟨hshort, -⟩ | ⟨-, hnext⟩
  · omega
  · omega
  · exact hnext

theorem exec_mhValid {s : State} (h : s.txtLen.toNat ≤ 32) :
    exec .mhValid s = .next { s with valid := isModHex (s.txt.toList.take s.txtLen.toNat) }.succeed := by
  rcases execMhValid_cases s with ⟨-, hnext⟩ | ⟨hlong, -⟩
  · exact hnext
  · omega

theorem exec_mhValid_overlong {s : State} (h : 32 < s.txtLen.toNat) :
    exec .mhValid s = .next (s.raise .malformedInput) := by
  rcases execMhValid_cases s with ⟨hshort, -⟩ | ⟨-, hnext⟩
  · omega
  · exact hnext

/-- The text that `MH_ENC` leaves is the encoding it wrote, no character more or less. -/
theorem mhEnc_text {s t : State} (h : s.blkLen.toNat ≤ 16) (ht : exec .mhEnc s = .next t) :
    t.txtLen.toNat = 2 * s.blkLen.toNat ∧
    t.txt.toList.take t.txtLen.toNat = modHexEncode (s.blk.toList.take s.blkLen.toNat) := by
  have hlen : (modHexEncode (s.blk.toList.take s.blkLen.toNat)).length = 2 * s.blkLen.toNat := by simp [h]
  have htxtLen : (BitVec.ofNat 8 (2 * s.blkLen.toNat)).toNat = 2 * s.blkLen.toNat := by
    rw [BitVec.toNat_ofNat]
    omega
  cases (exec_mhEnc h).symm.trans ht
  simp only [succeed_txt, succeed_txtLen, htxtLen, true_and]
  rw [← hlen, overlay_toList_take _ _ (by omega)]

/-- The round trip of R108 for the commands: `MH_DEC` reads exactly the characters `MH_ENC` wrote, and writes back the
leading bytes of `BLK` that they stand for. -/
theorem exec_mhDec_of_mhEnc {s t : State} (h : s.blkLen.toNat ≤ 16) (ht : exec .mhEnc s = .next t) :
    exec .mhDec t = .next { t with blk := s.blk, blkLen := s.blkLen }.succeed := by
  obtain ⟨htxtLen, htext⟩ := mhEnc_text h ht
  have hblk : t.blk = s.blk := by
    cases (exec_mhEnc h).symm.trans ht
    rfl
  have hdec : modHexDecode (t.txt.toList.take t.txtLen.toNat) = .ok (s.blk.toList.take s.blkLen.toNat) := by
    rw [htext, modHexDecode_modHexEncode]
  have hblkLen : BitVec.ofNat 8 (t.txtLen.toNat / 2) = s.blkLen := by
    rw [htxtLen, Nat.mul_div_cancel_left _ (by omega), BitVec.ofNat_toNat, BitVec.setWidth_eq]
  rw [exec_mhDec (by omega) hdec, hblk, overlay_take_self, hblkLen]

/-! ### The obligations -/

/-- Settles O30: the table row by row, and each lookup undoes the other on the alphabet. -/
theorem modHexLookups : Obligations.ModHexLookups := by
  refine ⟨by decide, mhDecChar_mhEncNib, ?invalid, ?valid⟩
  case invalid => exact fun c hc => ⟨mhDecChar_nibble_of_invalid hc, mhEncNib_ne_of_invalid hc⟩
  case valid => exact fun c hc => mhEncNib_mhDecChar ((mem_alphabet_iff c).mpr hc)

/-- Settles O31: the encoded characters replace the leading part of `TXT`, and an overlong `BLK` is refused. -/
theorem mhEncResult : Obligations.MhEncResult := by
  refine ⟨rfl, ?success, fun s h => exec_mhEnc_overlong h⟩
  case success =>
    intro s h
    obtain ⟨htxtLen, -⟩ := mhEnc_text h (exec_mhEnc h)
    exact ⟨_, exec_mhEnc h, htxtLen, overlay_modHexEncode_getElem s.txt s.blk h, rfl⟩

/-- Settles O32: the decoded bytes replace the leading part of `BLK`; each examined character is the code of the nibble it
was decoded to, as it stands in the alphabet. -/
theorem mhDecResult : Obligations.MhDecResult := by
  refine ⟨rfl, ?success, fun s h => exec_mhDec_overlong h,
    fun s h hbad => exec_mhDec_refused h (modHexDecode_take_eq_error h hbad)⟩
  case success =>
    intro s h heven halphabet
    refine ⟨_, exec_mhDec h (modHexDecode_take_eq_ok h heven halphabet), ?length, ?bytes, rfl⟩
    case length =>
      simp only [succeed_blkLen, BitVec.toNat_ofNat]
      omega
    case bytes =>
      intro j
      simp only [succeed_blk]
      split
      next hj =>
        obtain ⟨hhigh, hlow⟩ := mhDecPair_nibbles s.txt[2 * j.val] s.txt[2 * j.val + 1]
        rw [overlay_mhDecPairs_getElem_of_lt _ _ h j hj, hhigh, hlow]
        exact ⟨mhEncNib_mhDecChar (halphabet ⟨2 * j.val, by omega⟩ (by dsimp only; omega)),
          mhEncNib_mhDecChar (halphabet ⟨2 * j.val + 1, by omega⟩ (by dsimp only; omega))⟩
      next hj => exact overlay_mhDecPairs_getElem_of_ge _ _ h j (by omega)

/-- Settles O33: `VALID` is the scan of the examined characters, which asks nothing of their number. -/
theorem mhValidResult : Obligations.MhValidResult := by
  refine ⟨rfl, ?success, fun s h => exec_mhValid_overlong h⟩
  case success =>
    intro s h
    rw [exec_mhValid h, isModHex_take_eq_decide]
    rfl

/-- Settles O34: the laws of the sequence functions, and the round trip of the commands that follows from the first. -/
theorem modHexLaws : Obligations.ModHexLaws := by
  refine ⟨modHexDecode_modHexEncode, ?chunking, ?validity, ?commands⟩
  case chunking =>
    intro b k
    rw [← modHexEncode_append, List.take_append_drop]
  case validity =>
    intro s b h
    obtain ⟨-, hvalid, -⟩ := modHexDecode_eq_ok_iff.mp h
    exact hvalid
  case commands =>
    intro s h
    exact ⟨_, _, exec_mhEnc h, exec_mhDec_of_mhEnc h (exec_mhEnc h), rfl, rfl, rfl⟩

end Sys2Proof.Machine

/-! The checksum generator (spec/41_crc16.md): `CrcStep` as eight shifts of one XOR (R120), the residue of a sealed
sequence (R123), the commands `CRC_INIT`, `CRC_UPDATE` and `CRC_CHECK` (R124..R126), and single-bit errors (R127). -/

namespace Sys2Proof.Machine

/-! ### Several shifts -/

theorem crcShift_iterate_xor (n : Nat) (a b : Half) : crcShift^[n] (a ^^^ b) = crcShift^[n] a ^^^ crcShift^[n] b := by
  induction n generalizing a b with
  | zero => rfl
  | succ n ih => simp only [Function.iterate_succ_apply, crcShift_xor, ih]

theorem crcShift_iterate_injective (n : Nat) : Function.Injective crcShift^[n] :=
  Function.Injective.iterate (fun _ _ h => crcShift_injective h) n

theorem crcShift_of_lsb_zero {a : Half} (h : a.getLsbD 0 = false) : crcShift a = a >>> 1 := by
  rw [crcShift, h]
  rfl

/-- No polynomial is XORed in while only zeros fall out. -/
theorem crcShift_iterate_of_low_zero {n : Nat} {a : Half} (h : ∀ i < n, a.getLsbD i = false) :
    crcShift^[n] a = a >>> n := by
  induction n with
  | zero => rfl
  | succ n ih =>
    have hprefix : crcShift^[n] a = a >>> n := ih fun i hi => h i (by omega)
    have hlsb : (a >>> n).getLsbD 0 = false := by simpa using h n (by omega)
    rw [Function.iterate_succ_apply', hprefix, crcShift_of_lsb_zero hlsb, BitVec.shiftRight_add]

/-- A value that fits above `n` zeros comes down unchanged in `n` shifts. -/
theorem crcShift_iterate_setWidth_shiftLeft {w n : Nat} (b : BitVec w) (hfits : w + n ≤ 16) :
    crcShift^[n] (b.setWidth 16 <<< n) = b.setWidth 16 := by
  rw [crcShift_iterate_of_low_zero fun i hi => by simp [hi]]
  ext i hi
  simp only [BitVec.getElem_ushiftRight, BitVec.getLsbD_shiftLeft, BitVec.getElem_setWidth, BitVec.getLsbD_setWidth]
  by_cases h : i < w
  · simp [show n + i < 16 by omega, hi]
  · simp [BitVec.getLsbD_of_ge b i (by omega)]

/-- `n` shifts before a value is XORed in at the bottom are as good as XORing it in `n` places higher before them. -/
theorem crcShift_iterate_xor_shiftLeft {w n : Nat} (c : Half) (b : BitVec w) (hfits : w + n ≤ 16) :
    crcShift^[n] (c ^^^ b.setWidth 16 <<< n) = crcShift^[n] c ^^^ b.setWidth 16 := by
  rw [crcShift_iterate_xor, crcShift_iterate_setWidth_shiftLeft b hfits]

/-! ### One byte -/

/-- The low `n + 1` bits of a byte are its low `n` bits with bit `n` XORed in above them. -/
theorem setWidth_succ_eq_xor (b : Byte) {n : Nat} (hn : n < 8) :
    (b.setWidth (n + 1)).setWidth 16 =
      (b.setWidth n).setWidth 16 ^^^ ((BitVec.ofBool (b.getLsbD n)).setWidth 16 <<< n : Half) := by
  ext i hi
  rcases lt_trichotomy i n with h | rfl | h
  · simp [h, Nat.lt_succ_of_lt h]
  · simp
  · simp [show ¬ i < n by omega, show ¬ i < n + 1 by omega, show i - n ≠ 0 by omega]

/-- The first `n` rounds of the bit-by-bit form are `n` shifts of the register with the low `n` bits XORed in at once. -/
theorem crcStep_rounds (c : Half) (b : Byte) {n : Nat} (hn : n ≤ 8) :
    (List.range n).foldl (fun c i => crcShift (c ^^^ (BitVec.ofBool (b.getLsbD i)).setWidth 16)) c =
      crcShift^[n] (c ^^^ (b.setWidth n).setWidth 16) := by
  induction n with
  | zero => simp [BitVec.of_length_zero]
  | succ n ih =>
    rw [List.range_succ, List.foldl_append, ih (by omega), setWidth_succ_eq_xor b (by omega), ← BitVec.xor_assoc,
      Function.iterate_succ_apply', crcShift_iterate_xor_shiftLeft _ _ (by omega)]
    rfl

/-- The byte-at-once form of R120. -/
theorem crcStep_eq_iterate (c : Half) (b : Byte) : crcStep c b = crcShift^[8] (c ^^^ b.setWidth 16) := by
  rw [crcStep, crcStep_rounds c b le_rfl, BitVec.setWidth_eq]

theorem crcStep_left_injective (b : Byte) : Function.Injective (crcStep · b) := by
  intro c c' h
  simp only [crcStep_eq_iterate] at h
  exact (BitVec.xor_left_inj _).mp (crcShift_iterate_injective 8 h)

theorem crcStep_right_injective (c : Half) : Function.Injective (crcStep c) := by
  intro b b' h
  simp only [crcStep_eq_iterate] at h
  have hwide : b.setWidth 16 = b'.setWidth 16 := (BitVec.xor_right_inj _).mp (crcShift_iterate_injective 8 h)
  simpa using congrArg (BitVec.setWidth 8) hwide

/-! ### Sequences -/

theorem crcFold_left_injective (l : List Byte) : Function.Injective (crcFold · l) := by
  induction l with
  | nil => exact fun _ _ h => h
  | cons b l ih => exact ih.comp (crcStep_left_injective b)

/-- Changing one element of a sequence changes its checksum. -/
theorem crcFold_set_ne (c : Half) {l : List Byte} {k : Nat} (hk : k < l.length) {b : Byte} (hb : b ≠ l[k]) :
    crcFold c (l.set k b) ≠ crcFold c l := by
  induction l generalizing c k with
  | nil => simp at hk
  | cons x l ih =>
    cases k with
    | zero => exact fun h => hb (crcStep_right_injective c (crcFold_left_injective l h))
    | succ k => exact ih (crcStep c x) (by simpa using hk) (by simpa using hb)

/-- The two bytes of a stored value, low byte first, are folded in as one 16-bit XOR and sixteen shifts. -/
theorem crcFold_le16 (c x : Half) : crcFold c (le16 x) = crcShift^[16] (c ^^^ x) := by
  have hwhole : (x.extractLsb' 0 8).setWidth 16 ^^^ ((x.extractLsb' 8 8).setWidth 16 <<< 8 : Half) = x := by
    ext i hi
    by_cases h : i < 8
    · simp [h, BitVec.getLsbD_eq_getElem hi]
    · simp [h, BitVec.getLsbD_eq_getElem hi, show i - 8 < 8 by omega, show 8 + (i - 8) = i by omega]
  calc crcFold c (le16 x)
      = crcShift^[8] (crcShift^[8] (c ^^^ (x.extractLsb' 0 8).setWidth 16) ^^^ (x.extractLsb' 8 8).setWidth 16) := by
        simp only [crcFold, le16, List.foldl_cons, List.foldl_nil, crcStep_eq_iterate]
    _ = crcShift^[8] (crcShift^[8] (c ^^^ x)) := by
        rw [← crcShift_iterate_xor_shiftLeft _ _ le_rfl, BitVec.xor_assoc, hwhole]
    _ = crcShift^[16] (c ^^^ x) := (Function.iterate_add_apply crcShift 8 8 _).symm

/-- The sentinel of R122 is what sixteen shifts make of all ones. -/
theorem crcShift_iterate_allOnes : crcShift^[16] (BitVec.allOnes 16) = crcResidue := by decide +kernel

theorem xor_eq_allOnes_iff {w : Nat} {c x : BitVec w} : c ^^^ x = BitVec.allOnes w ↔ x = ~~~c := by
  rw [← BitVec.xor_right_inj c, ← BitVec.xor_assoc, BitVec.xor_self, BitVec.zero_xor, BitVec.xor_allOnes]

theorem crcOk_eq_decide (b : List Byte) : crcOk b = decide (checksum b = 0xF0B8) := rfl

theorem crcOk_iff {b : List Byte} : crcOk b = true ↔ checksum b = crcResidue := beq_iff_eq

/-! ### Flipped bits -/

theorem flipMask_ne_zero (i : Fin 128) : (1#8 <<< (i.val % 8)) ≠ 0#8 := by
  have hbit : i.val % 8 < 8 := Nat.mod_lt _ (by decide)
  intro h
  simpa [hbit] using congrArg (·.getLsbD (i.val % 8)) h

theorem flipBit_toList (t : Block) (i : Fin 128) :
    (flipBit t i).toList = t.toList.set (i.val / 8) (t[i.val / 8] ^^^ (1#8 <<< (i.val % 8))) := by
  simp [flipBit, Vector.toList_set]

theorem checksum_flipBit_ne (t : Block) (i : Fin 128) : checksum (flipBit t i).toList ≠ checksum t.toList := by
  rw [flipBit_toList]
  refine crcFold_set_ne crcInitValue (by simp; omega) ?_
  simp [flipMask_ne_zero]

/-! ### The commands -/

theorem exec_crcUpdate {s : State} (h : s.blkLen.toNat ≤ 16) :
    exec .crcUpdate s = .next { s with crcAcc := crcFold s.crcAcc (s.blk.toList.take s.blkLen.toNat) }.succeed := by
  rcases execCrcUpdate_cases s with ⟨-, hnext⟩ | ⟨hlong, -⟩
  · exact hnext
  · omega

theorem exec_crcUpdate_overlong {s : State} (h : 16 < s.blkLen.toNat) :
    exec .crcUpdate s = .next (s.raise .malformedInput) := by
  rcases execCrcUpdate_cases s with ⟨hshort, -⟩ | ⟨-, hnext⟩
  · omega
  · exact hnext

theorem exec_crcCheck {s : State} (hmin : 2 ≤ s.blkLen.toNat) (hmax : s.blkLen.toNat ≤ 16) :
    exec .crcCheck s = .next { s with valid := crcOk (s.blk.toList.take s.blkLen.toNat) }.succeed := by
  rcases execCrcCheck_cases s with ⟨-, -, hnext⟩ | ⟨hout, -⟩
  · exact hnext
  · omega

theorem exec_crcCheck_out_of_range {s : State} (h : s.blkLen.toNat < 2 ∨ 16 < s.blkLen.toNat) :
    exec .crcCheck s = .next (s.raise .malformedInput) := by
  rcases execCrcCheck_cases s with ⟨hmin, hmax, -⟩ | ⟨-, hnext⟩
  · omega
  · exact hnext

/-! ### The obligations -/

/-- Settles O36: the initial value and the completion fields of success are all that is written. -/
theorem crcInitResult : Obligations.CrcInitResult := ⟨rfl, fun _ => rfl⟩

/-- Settles O37: chaining is the fold over a sequence cut in two. -/
theorem crcUpdateResult : Obligations.CrcUpdateResult := by
  refine ⟨rfl, fun _ h => exec_crcUpdate h, fun _ h => exec_crcUpdate_overlong h, ?chaining⟩
  case chaining =>
    intro p s h hacc
    refine ⟨_, exec_crcUpdate h, ?_⟩
    rw [succeed_crcAcc, hacc]
    exact (crcFold_append crcInitValue p _).symm

/-- Settles O38: both length bounds refuse, and a check that fails is no error. -/
theorem crcCheckResult : Obligations.CrcCheckResult := by
  refine ⟨rfl, ?checked, fun _ h => exec_crcCheck_out_of_range h⟩
  case checked =>
    intro s hmin hmax
    rw [exec_crcCheck hmin hmax, crcOk_eq_decide]
    rfl

/-- Settles O39: the stored value is XORed into the register whole, and the shifts that follow lose nothing, so exactly
one stored value gives the sentinel. -/
theorem residueMeansComplement : Obligations.ResidueMeansComplement := by
  intro p x
  calc checksum (p ++ le16 x) = 0xF0B8
      ↔ crcShift^[16] (checksum p ^^^ x) = crcResidue := by rw [checksum, crcFold_append, crcFold_le16]; rfl
    _ ↔ checksum p ^^^ x = BitVec.allOnes 16 := by
        rw [← crcShift_iterate_allOnes, (crcShift_iterate_injective 16).eq_iff]
    _ ↔ x = ~~~(checksum p) := xor_eq_allOnes_iff

/-- Settles O40: the flipped block has another checksum than the sealed one, whose checksum is the sentinel. -/
theorem singleBitFlipDetected : Obligations.SingleBitFlipDetected := by
  intro t i hvalid
  have hsealed : checksum t.toList = crcResidue := crcOk_iff.mp hvalid
  refine Bool.eq_false_iff.mpr fun hpasses => checksum_flipBit_ne t i ?_
  rw [crcOk_iff.mp hpasses, hsealed]

end Sys2Proof.Machine

/-! The token (spec/42_token.md): the field views and `Pack` (R140), validity (R141), `Seal` and `FromFields` (R143), and
the commands `TOK_PACK`, `TOK_UNPACK` and `TOK_SEAL` (R144..R146). -/

namespace Sys2Proof.Machine

/-! ### The layout -/

theorem tokenCrc_eq_append (t : Block) : (tokenFields t).crc = t[15] ++ t[14] := u16le_eq_append t[14] t[15]

theorem le16_u16le (b0 b1 : Byte) : le16 (u16le b0 b1) = [b0, b1] := by
  rw [le16, extract_low_u16le, extract_high_u16le]

theorem le16_injective : Function.Injective le16 := by
  intro x y h
  obtain ⟨hlow, hhigh⟩ : x.extractLsb' 0 8 = y.extractLsb' 0 8 ∧ x.extractLsb' 8 8 = y.extractLsb' 8 8 := by
    simpa [le16] using h
  rw [← append_extract x, hlow, hhigh, append_extract]

theorem identifier_of_elements (u : Vector Byte 6) : #v[u[0], u[1], u[2], u[3], u[4], u[5]] = u := by
  ext i hi
  interval_cases i <;> rfl

theorem packFields_toList (f : TokenFields) :
    (packFields f).toList = f.identifier.toList ++ le16 f.counter ++ le16 f.timestampLow ++ [f.timestampHigh]
      ++ [f.sessionUse] ++ le16 f.random ++ le16 f.crc :=
  blockOf_toList _ (by simp)

/-- `Pack` byte by byte. -/
theorem packFields_eq (f : TokenFields) :
    packFields f =
      #v[f.identifier[0], f.identifier[1], f.identifier[2], f.identifier[3], f.identifier[4], f.identifier[5],
        f.counter.extractLsb' 0 8, f.counter.extractLsb' 8 8,
        f.timestampLow.extractLsb' 0 8, f.timestampLow.extractLsb' 8 8, f.timestampHigh, f.sessionUse,
        f.random.extractLsb' 0 8, f.random.extractLsb' 8 8, f.crc.extractLsb' 0 8, f.crc.extractLsb' 8 8] := by
  apply Vector.toList_inj.mp
  rw [packFields_toList, ← identifier_of_elements f.identifier]
  rfl

theorem tokenFields_packFields (f : TokenFields) : tokenFields (packFields f) = f := by
  rw [packFields_eq]
  simp [tokenFields, u16le_le16, identifier_of_elements]

theorem packFields_tokenFields (t : Block) : packFields (tokenFields t) = t := by
  rw [packFields_eq]
  simp only [tokenFields, extract_low_u16le, extract_high_u16le]
  ext i hi
  interval_cases i <;> rfl

/-! ### The sealed bytes and the stored CRC -/

@[simp] theorem serialize14_length (t : Block) : (serialize14 t).length = 14 := by
  simp [serialize14, sealedPrefixBytes]

theorem serialize14_eq_iff {t u : Block} : serialize14 t = serialize14 u ↔ ∀ i : Fin 14, t[i.val] = u[i.val] := by
  constructor
  · intro h i
    simpa [serialize14] using List.getElem_of_eq h (i := i.val) (by simp)
  · intro h
    refine List.ext_getElem (by simp) fun i hi _ => ?_
    simpa [serialize14] using h ⟨i, by simpa using hi⟩

/-- A block is the bytes the checksum covers, then its stored CRC, low byte first. -/
theorem serialize14_append_crc (t : Block) : serialize14 t ++ le16 (tokenFields t).crc = t.toList := by
  have hstored : le16 (tokenFields t).crc = t.toList.drop sealedPrefixBytes := by
    rw [tokenFields, le16_u16le, sealedPrefixBytes, List.drop_eq_getElem_cons (by simp),
      List.drop_eq_getElem_cons (by simp), List.drop_of_length_le (by simp)]
    simp
  rw [hstored, serialize14, List.take_append_drop]

/-- A block laid out as 14 bytes and a 16-bit value has those for its sealed bytes and its stored CRC. -/
theorem serialize14_and_crc_of_toList_eq {t : Block} {p : List Byte} {x : Half} (hp : p.length = 14)
    (ht : t.toList = p ++ le16 x) : serialize14 t = p ∧ (tokenFields t).crc = x := by
  obtain ⟨hprefix, hstored⟩ :=
    List.append_inj ((serialize14_append_crc t).trans ht) (by rw [serialize14_length, hp])
  exact ⟨hprefix, le16_injective hstored⟩

/-- The CRC named in a field tuple does not reach the bytes the checksum covers. -/
theorem serialize14_packFields_with_crc (f : TokenFields) (x : Half) :
    serialize14 (packFields { f with crc := x }) = serialize14 (packFields f) := by
  obtain ⟨hx, -⟩ := serialize14_and_crc_of_toList_eq (by simp) (packFields_toList { f with crc := x })
  obtain ⟨hf, -⟩ := serialize14_and_crc_of_toList_eq (by simp) (packFields_toList f)
  exact hx.trans hf.symm

theorem tokenValid_iff_residue {t : Block} : tokenValid t = true ↔ checksum t.toList = 0xF0B8 := crcOk_iff

/-- The stored value of a valid token is the one `Seal` would store (R141). -/
theorem tokenValid_iff {t : Block} : tokenValid t = true ↔ (tokenFields t).crc = sealValue t := by
  rw [tokenValid_iff_residue, ← serialize14_append_crc]
  exact residueMeansComplement (serialize14 t) (tokenFields t).crc

/-! ### Sealing -/

theorem sealToken_toList (t : Block) : (sealToken t).toList = serialize14 t ++ le16 (sealValue t) :=
  blockOf_toList _ (by simp)

@[simp] theorem serialize14_sealToken (t : Block) : serialize14 (sealToken t) = serialize14 t :=
  (serialize14_and_crc_of_toList_eq (serialize14_length t) (sealToken_toList t)).1

theorem tokenCrc_sealToken (t : Block) : (tokenFields (sealToken t)).crc = sealValue t :=
  (serialize14_and_crc_of_toList_eq (serialize14_length t) (sealToken_toList t)).2

theorem sealToken_getElem (t : Block) (i : Fin 14) : (sealToken t)[i.val] = t[i.val] :=
  serialize14_eq_iff.mp (serialize14_sealToken t) i

theorem sealToken_stored (t : Block) : (sealToken t)[15] ++ (sealToken t)[14] = sealValue t := by
  rw [← tokenCrc_eq_append, tokenCrc_sealToken]

/-- `Seal` reads bytes 0..13 only. -/
theorem sealToken_congr {t u : Block} (h : serialize14 t = serialize14 u) : sealToken t = sealToken u := by
  simp only [sealToken, sealValue, h]

@[simp] theorem sealToken_sealToken (t : Block) : sealToken (sealToken t) = sealToken t :=
  sealToken_congr (serialize14_sealToken t)

theorem tokenValid_sealToken (t : Block) : tokenValid (sealToken t) = true := by
  rw [tokenValid_iff, tokenCrc_sealToken, sealValue, sealValue, serialize14_sealToken]

theorem sealToken_set_stored (t : Block) (a b : Byte) : sealToken ((t.set 14 a).set 15 b) = sealToken t := by
  refine sealToken_congr (serialize14_eq_iff.mpr fun i => ?_)
  rw [Vector.getElem_set_ne _ _ (by omega), Vector.getElem_set_ne _ _ (by omega)]

theorem fromFields_eq_sealToken (f : TokenFields) : fromFields f = sealToken (packFields f) :=
  sealToken_congr (serialize14_packFields_with_crc f 0x0000)

/-! ### The commands -/

theorem exec_tokPack (s : State) : exec .tokPack s = .next { s with blk := s.tok, blkLen := 16 }.succeed := rfl

theorem exec_tokUnpack {s : State} (h : s.blkLen = 16) : exec .tokUnpack s = .next { s with tok := s.blk }.succeed := by
  rcases execTokUnpack_cases s with ⟨-, hnext⟩ | ⟨hother, -⟩
  · exact hnext
  · exact absurd h hother

theorem exec_tokUnpack_other_length {s : State} (h : s.blkLen ≠ 16) :
    exec .tokUnpack s = .next (s.raise .malformedInput) := by
  rcases execTokUnpack_cases s with ⟨hfull, -⟩ | ⟨-, hnext⟩
  · exact absurd hfull h
  · exact hnext

theorem exec_tokSeal (s : State) : exec .tokSeal s = .next { s with tok := sealToken s.tok }.succeed := rfl

/-! ### The obligations -/

/-- Settles O41: each two-byte field is its two bytes appended, and `Pack`, known byte by byte, undoes the views. -/
theorem fieldViewsInverse : Obligations.FieldViewsInverse := by
  refine ⟨?views, ?pack, fun _ => rfl, packFields_tokenFields, tokenFields_packFields⟩
  case views =>
    intro t
    exact ⟨rfl, u16le_eq_append t[6] t[7], u16le_eq_append t[8] t[9], rfl, rfl, u16le_eq_append t[12] t[13],
      tokenCrc_eq_append t⟩
  case pack =>
    intro f
    rw [packFields_toList]
    simp

/-- Settles O42: the residue check of the sealed bytes followed by the stored value. -/
theorem tokenValidMeansStoredComplement : Obligations.TokenValidMeansStoredComplement :=
  fun _ => ⟨tokenValid_iff_residue, tokenValid_iff⟩

/-- Settles O43: `Seal` is a function of bytes 0..13, which it keeps. -/
theorem sealLaws : Obligations.SealLaws := by
  refine ⟨fun t => ?_, fromFields_eq_sealToken⟩
  exact ⟨tokenValid_sealToken t, sealToken_getElem t, sealToken_stored t, sealToken_set_stored t, sealToken_sealToken t⟩

/-- Settles O49: `TOK` is sealed, and sealing what is sealed changes nothing. -/
theorem tokSealResult : Obligations.TokSealResult := by
  refine ⟨rfl, fun s => ⟨_, exec_tokSeal s, sealToken_stored s.tok, sealToken_getElem s.tok, rfl, ?again⟩⟩
  case again =>
    rw [exec_tokSeal, succeed_tok, sealToken_sealToken]
    rfl

/-- Settles O47: the copy, the length and the completion fields of success are all that is written. -/
theorem tokPackResult : Obligations.TokPackResult := ⟨rfl, exec_tokPack⟩

/-- Settles O48: a whole block is copied as it stands, and any other length is refused. -/
theorem tokUnpackResult : Obligations.TokUnpackResult :=
  ⟨rfl, fun _ h => ⟨_, exec_tokUnpack h, rfl, status_bit4 _⟩, fun _ h => exec_tokUnpack_other_length h⟩

end Sys2Proof.Machine

/-! AES-128 (spec/43_aes.md): the words of the key schedule (R164), the inversion of the rounds (R163, R166..R168,
R171), and the commands `AES_ENC` and `AES_DEC` (R172, R173). -/

namespace Sys2Proof.Machine

/-! ### The key schedule -/

theorem keyWord_of_round (k : Block) (q : Nat) {c : Nat} (hc : c < 4) :
    keyWord k (4 * q + c) = (roundKey k q).column c := by
  rw [keyWord, show (4 * q + c) / 4 = q by omega, show (4 * q + c) % 4 = c by omega]

theorem nextRoundKey_column_zero (rc : Byte) (k : AesState) :
    (nextRoundKey rc k).column 0 =
      (k.column 0).add ((subWord (rotWord (k.column 3))).add ⟨rc, 0x00, 0x00, 0x00⟩) := rfl

theorem nextRoundKey_column_succ (rc : Byte) (k : AesState) {c : Nat} (hc : c < 3) :
    (nextRoundKey rc k).column (c + 1) = (k.column (c + 1)).add ((nextRoundKey rc k).column c) := by
  interval_cases c <;> rfl

/-- The first word of a round key comes from the first and the last word of the round key before it. -/
theorem keyWord_first_of_round (k : Block) (q : Nat) :
    keyWord k (4 * (q + 1)) = (keyWord k (4 * q)).add
      ((subWord (rotWord (keyWord k (4 * q + 3)))).add ⟨rcon.getD q 0x00, 0x00, 0x00, 0x00⟩) := by
  have hnext := keyWord_of_round k (q + 1) (c := 0) (by omega)
  have hfirst := keyWord_of_round k q (c := 0) (by omega)
  have hlast := keyWord_of_round k q (c := 3) (by omega)
  rw [Nat.add_zero] at hnext hfirst
  rw [hnext, hfirst, hlast, roundKey, nextRoundKey_column_zero]

/-- Each further word of a round key comes from the word before it and the word four places back. -/
theorem keyWord_later_of_round (k : Block) (q : Nat) {c : Nat} (hc : c < 3) :
    keyWord k (4 * (q + 1) + (c + 1)) =
      (keyWord k (4 * q + (c + 1))).add (keyWord k (4 * (q + 1) + c)) := by
  rw [keyWord_of_round k (q + 1) (by omega), keyWord_of_round k q (by omega),
    keyWord_of_round k (q + 1) (by omega), roundKey, nextRoundKey_column_succ _ _ hc]

/-- The recurrence of R164, which holds of the model at every word past the third. -/
theorem keyWord_recurrence (k : Block) {i : Nat} (hi : 4 ≤ i) :
    keyWord k i = (keyWord k (i - 4)).add
      (if i % 4 = 0 then
        (subWord (rotWord (keyWord k (i - 1)))).add ⟨rcon.getD (i / 4 - 1) 0x00, 0x00, 0x00, 0x00⟩
      else keyWord k (i - 1)) := by
  obtain ⟨q, hq⟩ : ∃ q, i / 4 = q + 1 := ⟨i / 4 - 1, by omega⟩
  cases hc : i % 4 with
  | zero =>
    obtain rfl : i = 4 * (q + 1) := by omega
    rw [if_pos rfl, hq, keyWord_first_of_round]
    rfl
  | succ c =>
    obtain rfl : i = 4 * (q + 1) + (c + 1) := by omega
    rw [if_neg (Nat.succ_ne_zero c), keyWord_later_of_round k q (by omega),
      show 4 * (q + 1) + (c + 1) - 4 = 4 * q + (c + 1) by omega]
    rfl

/-! ### The column mix as a linear map -/

theorem mixRow_add (k0 k1 k2 k3 : Byte) (a b : AesColumn) :
    mixRow k0 k1 k2 k3 (a.add b) = mixRow k0 k1 k2 k3 a ^^^ mixRow k0 k1 k2 k3 b := by
  simp only [mixRow, AesColumn.add, gmul_xor]
  ac_rfl

theorem mixColumn_add (a b : AesColumn) : mixColumn (a.add b) = (mixColumn a).add (mixColumn b) := by
  rw [mixColumn]
  simp only [mixRow_add]
  rfl

theorem invMixColumn_add (a b : AesColumn) : invMixColumn (a.add b) = (invMixColumn a).add (invMixColumn b) := by
  rw [invMixColumn]
  simp only [mixRow_add]
  rfl

/-- Turning a column turns the matrix row along with it. -/
theorem mixRow_rotWord (k0 k1 k2 k3 : Byte) (a : AesColumn) :
    mixRow k0 k1 k2 k3 (rotWord a) = mixRow k3 k0 k1 k2 a := by
  simp only [mixRow, rotWord]
  ac_rfl

/-- The matrix of `MixColumns` is circulant. -/
theorem mixColumn_rotWord (a : AesColumn) : mixColumn (rotWord a) = rotWord (mixColumn a) := by
  rw [mixColumn]
  simp only [mixRow_rotWord]
  rfl

/-- The matrix of `InvMixColumns` is circulant. -/
theorem invMixColumn_rotWord (a : AesColumn) : invMixColumn (rotWord a) = rotWord (invMixColumn a) := by
  rw [invMixColumn]
  simp only [mixRow_rotWord]
  rfl

/-- The column with `x` in its first row and zero elsewhere. -/
def AesColumn.single (x : Byte) : AesColumn := ⟨x, 0x00, 0x00, 0x00⟩

/-- A column is the sum of its bytes, each turned into its row. -/
theorem AesColumn.eq_sum_single (a : AesColumn) :
    a = (AesColumn.single a.r0).add ((rotWord (rotWord (rotWord (.single a.r1)))).add
      ((rotWord (rotWord (.single a.r2))).add (rotWord (.single a.r3)))) := by
  simp [AesColumn.single, AesColumn.add, rotWord]

theorem AesColumn.single_xor (x y : Byte) : single (x ^^^ y) = (single x).add (single y) := by
  simp [single, AesColumn.add]

theorem byte_eq_xor_nibbles (x : Byte) : x = (x.extractLsb' 4 4 ++ 0#4) ^^^ (0#4 ++ x.extractLsb' 0 4) := by
  revert x
  decide +kernel

/-- The product of the two matrices has the first column of the identity; by linearity the bytes with one nibble zero
suffice. -/
theorem invMixColumn_mixColumn_single (x : Byte) : invMixColumn (mixColumn (.single x)) = .single x := by
  have hhigh : ∀ n : BitVec 4, invMixColumn (mixColumn (.single (n ++ 0#4))) = .single (n ++ 0#4) := by decide +kernel
  have hlow : ∀ n : BitVec 4, invMixColumn (mixColumn (.single (0#4 ++ n))) = .single (0#4 ++ n) := by decide +kernel
  rw [byte_eq_xor_nibbles x, AesColumn.single_xor, mixColumn_add, invMixColumn_add, hhigh, hlow]

/-- `InvMixColumns` undoes `MixColumns` (R167): both are linear and circulant, so one column of the product decides. -/
theorem invMixColumn_mixColumn (a : AesColumn) : invMixColumn (mixColumn a) = a := by
  rw [a.eq_sum_single]
  simp only [mixColumn_add, invMixColumn_add, mixColumn_rotWord, invMixColumn_rotWord, invMixColumn_mixColumn_single]

theorem invMixColumns_mixColumns (s : AesState) : invMixColumns (mixColumns s) = s := by
  simp only [invMixColumns, mixColumns, AesState.mapColumns, invMixColumn_mixColumn]

/-! ### Decryption undoes encryption -/

/-- The table of R163 undoes the table of R162, entry by entry. -/
theorem invSbox_sbox (x : Byte) : invSbox (sbox x) = x := by
  revert x
  decide +kernel

theorem invSubBytes_subBytes (s : AesState) : invSubBytes (subBytes s) = s := by
  simp only [invSubBytes, subBytes, AesState.mapColumns, AesColumn.mapBytes, invSbox_sbox]

/-- The round orders of R170 and R171 differ: a decryption round begins by undoing the `SubBytes` and `ShiftRows` of the
encryption round after it, so what it inverts is a round followed by these two. -/
theorem decRound_encRound (s rk : AesState) :
    decRound (shiftRows (subBytes (encRound s rk))) rk = shiftRows (subBytes s) := by
  rw [decRound, invShiftRows_shiftRows, invSubBytes_subBytes, encRound, addRoundKey_addRoundKey,
    invMixColumns_mixColumns]

/-- Decryption rounds in the opposite order undo any sequence of encryption rounds. -/
theorem decRounds_encRounds (key : Nat → AesState) (rounds : List Nat) (s : AesState) :
    rounds.reverse.foldl (fun t r => decRound t (key r))
      (shiftRows (subBytes (rounds.foldl (fun t r => encRound t (key r)) s))) = shiftRows (subBytes s) := by
  induction rounds generalizing s with
  | nil => rfl
  | cons r rounds ih =>
    rw [List.foldl_cons, List.reverse_cons, List.foldl_append, ih, List.foldl_cons, List.foldl_nil, decRound_encRound]

theorem aesDecrypt_aesEncrypt (k p : Block) : aesDecrypt k (aesEncrypt k p) = p := by
  have hrounds := decRounds_encRounds (roundKey k) [1, 2, 3, 4, 5, 6, 7, 8, 9]
    (addRoundKey (aesOfBlock p) (roundKey k 0))
  simp only [List.reverse_cons, List.reverse_nil, List.nil_append, List.cons_append] at hrounds
  simp only [aesDecrypt, aesEncrypt, aesOfBlock_aesToBlock, addRoundKey_addRoundKey, hrounds, invShiftRows_shiftRows,
    invSubBytes_subBytes, aesToBlock_aesOfBlock]

/-! ### The commands -/

theorem exec_aesEnc {s : State} (h : s.blkLen = 16) :
    exec .aesEnc s = .next { s with blk := aesEncrypt s.key s.blk }.succeed :=
  ((execAesEnc_cases s).resolve_right fun ⟨hother, _⟩ => hother h).2

theorem exec_aesEnc_other_length {s : State} (h : s.blkLen ≠ 16) :
    exec .aesEnc s = .next (s.raise .malformedInput) :=
  ((execAesEnc_cases s).resolve_left fun ⟨hfull, _⟩ => h hfull).2

theorem exec_aesDec {s : State} (h : s.blkLen = 16) :
    exec .aesDec s = .next { s with blk := aesDecrypt s.key s.blk }.succeed :=
  ((execAesDec_cases s).resolve_right fun ⟨hother, _⟩ => hother h).2

theorem exec_aesDec_other_length {s : State} (h : s.blkLen ≠ 16) :
    exec .aesDec s = .next (s.raise .malformedInput) :=
  ((execAesDec_cases s).resolve_left fun ⟨hfull, _⟩ => h hfull).2

/-! ### The obligations -/

/-- Settles O51: the first words are the key's own, the others follow from the round key before, and a round key is its
four columns. -/
theorem keyScheduleWords : Obligations.KeyScheduleWords := by
  refine fun k => ⟨?first, fun i hi _ => keyWord_recurrence k hi, ?rounds⟩
  case first =>
    intro i
    fin_cases i <;> rfl
  case rounds =>
    intro r _
    have hzero := keyWord_of_round k r (c := 0) (by omega)
    rw [Nat.add_zero] at hzero
    rw [hzero, keyWord_of_round k r (by omega), keyWord_of_round k r (by omega), keyWord_of_round k r (by omega)]
    rfl

/-- Settles O54: a whole block is encrypted in place, and any other length is refused. -/
theorem aesEncResult : Obligations.AesEncResult :=
  ⟨rfl, fun _ h => exec_aesEnc h, fun _ h => exec_aesEnc_other_length h⟩

/-- Settles O55: a whole block is decrypted in place, any other length is refused, and `AES_ENC` keeps `KEY` and
`BLK_LEN`, so the decryption that follows it is by the same key. -/
theorem aesDecResult : Obligations.AesDecResult := by
  refine ⟨rfl, fun _ h => exec_aesDec h, fun _ h => exec_aesDec_other_length h, ?restores⟩
  case restores =>
    intro s h
    refine ⟨_, _, exec_aesEnc h, exec_aesDec (by rw [succeed_blkLen, h]), ?_⟩
    simp only [succeed_blk, succeed_key, aesDecrypt_aesEncrypt]

end Sys2Proof.Machine

/-! The OTP transforms (spec/44_otp.md): the text of a block as 32 characters (R81), the commands `GENERATE` and `PARSE`
(R190, R191), and their round trip under one key (R193). -/

namespace Sys2Proof.Machine

/-! ### The text of a block -/

/-- A text is the encoding of a block exactly when its characters are the codes of the block's nibbles, the high nibble of
each byte first (R81). -/
theorem text_eq_modHexEncode_iff {t : Text} {ct : Block} :
    t.toList = modHexEncode ct.toList ↔
      ∀ i : Fin 16, t[2 * i.val] = mhEncNib (ct[i].extractLsb' 4 4) ∧
        t[2 * i.val + 1] = mhEncNib (ct[i].extractLsb' 0 4) := by
  constructor
  case mp =>
    intro h i
    have hchar (j : Nat) (hj : j < 32) : t[j] = (modHexEncode ct.toList)[j]'(by simpa using hj) := by
      simp only [← h, Vector.getElem_toList]
    rw [hchar (2 * i.val) (by omega), hchar (2 * i.val + 1) (by omega), modHexEncode_getElem, modHexEncode_getElem]
    simp [show (2 * i.val + 1) / 2 = i.val by omega]
  case mpr =>
    intro h
    refine List.ext_getElem (by simp) fun j hj _ => ?_
    simp only [Vector.length_toList] at hj
    obtain ⟨hhigh, hlow⟩ := h ⟨j / 2, by omega⟩
    rw [Vector.getElem_toList, modHexEncode_getElem]
    split
    next heven => simpa only [show 2 * (j / 2) = j by omega, Fin.getElem_fin, Vector.getElem_toList] using hhigh
    next hodd => simpa only [show 2 * (j / 2) + 1 = j by omega, Fin.getElem_fin, Vector.getElem_toList] using hlow

/-! ### The commands -/

theorem exec_generate (s : State) :
    exec .generate s = .next { s with
      txt := overlay s.txt (modHexEncode (aesEncrypt s.key s.tok).toList), txtLen := 32 }.succeed := rfl

/-- The 32 characters `GENERATE` writes fill `TXT`, so nothing of the old text is left. -/
theorem overlay_modHexEncode_block_toList (t : Text) (ct : Block) :
    (overlay t (modHexEncode ct.toList)).toList = modHexEncode ct.toList :=
  overlay_toList_of_length _ _ (by simp)

/-- `PARSE` of a text that stands for the block `ct`: the decrypted block's checksum alone decides. -/
theorem exec_parse_of_encoding {s : State} {ct : Block} (hlen : s.txtLen = 32)
    (htext : s.txt.toList = modHexEncode ct.toList) :
    exec .parse s = .next (if tokenValid (aesDecrypt s.key ct) then { s with tok := aesDecrypt s.key ct }.succeed
      else s.raise .checksumMismatch) := by
  have hdec : modHexDecode s.txt.toList = .ok ct.toList := by rw [htext, modHexDecode_modHexEncode]
  rcases execParse_cases s with ⟨-, b, hb, hcrc, hnext⟩ | ⟨-, b, hb, hcrc, hnext⟩ | ⟨-, e, he, -⟩ | ⟨hother, -⟩
  · cases hdec.symm.trans hb
    rw [blockOf_vector_toList] at hcrc hnext
    rw [tokenValid, if_pos hcrc]
    exact hnext
  · cases hdec.symm.trans hb
    rw [blockOf_vector_toList] at hcrc
    rw [tokenValid, if_neg (Bool.eq_false_iff.mp hcrc)]
    exact hnext
  · cases hdec.symm.trans he
  · exact absurd hlen hother

/-- Any other length and any character outside the alphabet raise the same error (R191). -/
theorem exec_parse_refused {s : State} (h : s.txtLen ≠ 32 ∨ ∃ i : Fin 32, s.txt[i] ∉ modhexAlphabet) :
    exec .parse s = .next (s.raise .invalidEncoding) := by
  have hdec : s.txtLen = 32 → modHexDecode s.txt.toList = .error .invalidEncoding := by
    intro hlen
    obtain ⟨i, houtside⟩ := h.resolve_left (not_not_intro hlen)
    have hrefused := modHexDecode_take_eq_error (le_refl 32) (.inr ⟨i, i.isLt, houtside⟩)
    rwa [List.take_of_length_le (by simp)] at hrefused
  rcases execParse_cases s with ⟨hlen, b, hb, -⟩ | ⟨hlen, b, hb, -⟩ | ⟨hlen, e, he, hnext⟩ | ⟨-, hnext⟩
  · cases (hdec hlen).symm.trans hb
  · cases (hdec hlen).symm.trans hb
  · cases (hdec hlen).symm.trans he
    exact hnext
  · exact hnext

/-- The round trip of R193: `PARSE` decrypts the block that `GENERATE` encrypted, which is the token it started from. -/
theorem exec_parse_of_generate {s t : State} (ht : exec .generate s = .next t) :
    exec .parse t = .next (if tokenValid s.tok then t.succeed else t.raise .checksumMismatch) := by
  cases (exec_generate s).symm.trans ht
  rw [exec_parse_of_encoding rfl (overlay_modHexEncode_block_toList s.txt (aesEncrypt s.key s.tok))]
  simp only [succeed_key, aesDecrypt_aesEncrypt]
  rfl

/-! ### The obligations -/

/-- Settles O56: the text that fills `TXT` is the encoding of the encrypted token, read character by character. -/
theorem generateResult : Obligations.GenerateResult :=
  ⟨rfl, fun s => ⟨_, exec_generate s, rfl, text_eq_modHexEncode_iff.mp (overlay_modHexEncode_block_toList _ _), rfl⟩⟩

/-- Settles O57: a text that stands for a block is decoded to it and the residue check decides; any other is refused
before the cipher runs. -/
theorem parseResult : Obligations.ParseResult := by
  refine ⟨rfl, ?accepted, ?mismatch, fun s h => exec_parse_refused h⟩
  case accepted =>
    intro s ct hlen htext hcrc
    rw [exec_parse_of_encoding hlen (text_eq_modHexEncode_iff.mpr htext), if_pos (tokenValid_iff_residue.mpr hcrc)]
    rfl
  case mismatch =>
    intro s ct hlen htext hcrc
    rw [exec_parse_of_encoding hlen (text_eq_modHexEncode_iff.mpr htext), if_neg (mt tokenValid_iff_residue.mp hcrc)]
    rfl

/-- Settles O59: neither outcome of the `PARSE` changes `TOK`, and the error code is that of the residue check. -/
theorem otpRoundTrip : Obligations.OtpRoundTrip := by
  refine fun s => ⟨_, _, exec_generate s, exec_parse_of_generate (exec_generate s), ?kept, ?code⟩
  case kept => split <;> rfl
  case code => split <;> rfl

end Sys2Proof.Machine

/-! The control commands `NOP` and `KEY_CLR` (spec/45_control.md R200, R201). -/

namespace Sys2Proof.Machine

/-! ### The commands -/

/-- `NOP` is the completion event alone (R200): no register is written before it. -/
theorem exec_nop (s : State) : exec .nop s = .next s.succeed := completeWith_ok s s

/-- The only register `KEY_CLR` writes before it completes is `KEY` (R201). -/
theorem exec_keyClr (s : State) : exec .keyClr s = .next { s with key := Vector.replicate 16 0x00 }.succeed :=
  completeWith_ok s { s with key := Vector.replicate 16 0x00 }

/-- The key under which the cipher commands run after a `KEY_CLR`. -/
theorem exec_keyClr_key {s t : State} (ht : exec .keyClr s = .next t) : t.key = Vector.replicate 16 0x00 := by
  cases (exec_keyClr s).symm.trans ht
  exact succeed_key _

/-! ### The obligations -/

/-- Settles O28: the completion fields are all that `State.succeed` writes. -/
theorem nopResult : Obligations.NopResult := by
  obtain ⟨-, -, hdecode⟩ := Laws.EncodingRoundTrip.nop
  exact ⟨hdecode [], exec_nop⟩

/-- Settles O29: the key of the next state is zero byte by byte, and with the old key put back only the completion
fields differ. -/
theorem keyClrResult : Obligations.KeyClrResult := by
  obtain ⟨-, -, hdecode⟩ := Laws.EncodingRoundTrip.keyClr
  refine ⟨hdecode [], fun s => ⟨_, exec_keyClr s, ?zeroed, rfl⟩⟩
  case zeroed =>
    intro i
    rw [exec_keyClr_key (exec_keyClr s)]
    exact Vector.getElem_replicate i.isLt

end Sys2Proof.Machine

/-! Errors and completion (spec/60_exceptions.md): the atomic failure of R212, and the table of R211 in the order of R214. -/

namespace Sys2Proof.Machine

/-! ### The error code of a completion -/

/-- A completion answers one state, so its error code is read off any equation for it. -/
theorem errcode_of_outcome {o : Host.Outcome State Fault Refusal} {t u : State} (hu : o = .next u) (ht : o = .next t) :
    t.errcode = u.errcode := by
  cases hu.symm.trans ht
  rfl

/-- The rows of R211 with a single error: the command raises it exactly under its condition. -/
theorem exec_errcode_of_one_error {i : Instr} {s t : State} {e : CmdError} {p : Prop} [Decidable p]
    (hraise : p → exec i s = .next (s.raise e)) (hsucceed : ¬p → ∃ u : State, exec i s = .next u.succeed)
    (ht : exec i s = .next t) : t.errcode = if p then e.code else 0x00 := by
  split
  next h => exact errcode_of_outcome (hraise h) ht
  next h =>
    obtain ⟨u, hu⟩ := hsucceed h
    exact errcode_of_outcome hu ht

/-! ### The commands that need a whole block -/

theorem exec_errcode_of_whole_block {i : Instr} {s t : State}
    (hraise : s.blkLen ≠ 16 → exec i s = .next (s.raise .malformedInput))
    (hsucceed : s.blkLen = 16 → ∃ u : State, exec i s = .next u.succeed) (ht : exec i s = .next t) :
    t.errcode = if s.blkLen = 16 then 0x00 else 0x02 :=
  (exec_errcode_of_one_error hraise (fun h => hsucceed (not_not.mp h)) ht).trans (ite_not ..)

/-! ### The commands that decode a text -/

/-- The inverse of R103 on valid text: every character is the code of the nibble it was decoded to. -/
theorem modHexEncode_mhDecPairs : ∀ {l : List Byte}, l.length % 2 = 0 → (∀ c ∈ l, c ∈ modhexAlphabet) →
    modHexEncode (mhDecPairs l) = l
  | [], _, _ => rfl
  | [_], heven, _ => by simp at heven
  | hi :: lo :: rest, heven, halphabet => by
    simp only [List.forall_mem_cons] at halphabet
    obtain ⟨hhi, hlo, hrest⟩ := halphabet
    obtain ⟨hhigh, hlow⟩ := mhDecPair_nibbles hi lo
    have ih : modHexEncode (mhDecPairs rest) = rest :=
      modHexEncode_mhDecPairs (by simp only [List.length_cons] at heven; omega) hrest
    rw [mhDecPairs, modHexEncode_cons, hhigh, hlow, mhEncNib_mhDecChar hhi, mhEncNib_mhDecChar hlo, ih]

/-- A full `TXT` of modhex characters is the text of the block that its characters are decoded to (R81). -/
theorem text_eq_modHexEncode_of_alphabet {t : Text} (h : ∀ j : Fin 32, t[j] ∈ modhexAlphabet) :
    t.toList = modHexEncode (blockOf (mhDecPairs t.toList)).toList := by
  have halphabet : ∀ c ∈ t.toList, c ∈ modhexAlphabet := by
    intro c hc
    obtain ⟨j, hj, rfl⟩ := List.mem_iff_getElem.mp hc
    exact h ⟨j, by simpa using hj⟩
  rw [blockOf_toList _ (by simp), modHexEncode_mhDecPairs (by simp) halphabet]

/-- `MH_DEC` checks the length against the buffer, then its parity, then the characters (R214). -/
theorem exec_mhDec_errcode {s t : State} (ht : exec .mhDec s = .next t) :
    t.errcode =
      if 32 < s.txtLen.toNat then 0x02
      else if s.txtLen.toNat % 2 = 1 then 0x01
      else if ∃ j : Fin 32, j.val < s.txtLen.toNat ∧ s.txt[j] ∉ modhexAlphabet then 0x01
      else 0x00 := by
  split
  next hlong => exact errcode_of_outcome (exec_mhDec_overlong hlong) ht
  next hshort =>
    have hlen : s.txtLen.toNat ≤ 32 := by omega
    split
    next hodd => exact errcode_of_outcome (exec_mhDec_refused hlen (modHexDecode_take_eq_error hlen (.inl hodd))) ht
    next heven =>
      split
      next houtside =>
        exact errcode_of_outcome (exec_mhDec_refused hlen (modHexDecode_take_eq_error hlen (.inr houtside))) ht
      next hinside =>
        push Not at hinside
        exact errcode_of_outcome (exec_mhDec hlen (modHexDecode_take_eq_ok hlen (by omega) hinside)) ht

/-- `PARSE` checks the length and the characters before the cipher runs; the checksum of the decrypted block comes last
(R214). -/
theorem exec_parse_errcode {s t : State} (ht : exec .parse s = .next t) :
    t.errcode =
      if s.txtLen ≠ 32 then 0x01
      else if ∃ j : Fin 32, s.txt[j] ∉ modhexAlphabet then 0x01
      else if crcOk (aesDecrypt s.key (blockOf (mhDecPairs s.txt.toList))).toList then 0x00
      else 0x03 := by
  split
  next hother => exact errcode_of_outcome (exec_parse_refused (.inl hother)) ht
  next hlen =>
    split
    next houtside => exact errcode_of_outcome (exec_parse_refused (.inr houtside)) ht
    next hinside =>
      push Not at hlen hinside
      rw [errcode_of_outcome (exec_parse_of_encoding hlen (text_eq_modHexEncode_of_alphabet hinside)) ht, tokenValid]
      split <;> rfl

/-! ### The obligations -/

/-- Settles O26: a completion either raises an error, which writes the three fields alone, or succeeds with the code
0x00. -/
theorem failureIsAtomic : Obligations.FailureIsAtomic := by
  intro op s t ht hfailed
  rcases complete_completes op s with ⟨e, hraised⟩ | ⟨_, _, _, _, _, _, _, _, hsucceeded⟩
  · cases hraised.symm.trans ht
    rfl
  · cases hsucceeded.symm.trans ht
    exact absurd (succeed_errcode _) hfailed

/-- Settles O27, one case per row of R211. -/
theorem errorTable : Obligations.ErrorTable := by
  refine ⟨fun i s t ht => ?command, fun op s t hop ht => ?illegal⟩
  case command =>
    cases i with
    | nop => exact errcode_of_outcome (exec_nop s) ht
    | mhEnc => exact exec_errcode_of_one_error exec_mhEnc_overlong (fun h => ⟨_, exec_mhEnc (by omega)⟩) ht
    | mhDec => exact exec_mhDec_errcode ht
    | mhValid => exact exec_errcode_of_one_error exec_mhValid_overlong (fun h => ⟨_, exec_mhValid (by omega)⟩) ht
    | crcInit =>
      obtain ⟨-, hinit⟩ := crcInitResult
      exact errcode_of_outcome (hinit s) ht
    | crcUpdate =>
      exact exec_errcode_of_one_error exec_crcUpdate_overlong (fun h => ⟨_, exec_crcUpdate (by omega)⟩) ht
    | crcCheck =>
      exact exec_errcode_of_one_error exec_crcCheck_out_of_range
        (fun h => ⟨_, exec_crcCheck (by omega) (by omega)⟩) ht
    | tokPack => exact errcode_of_outcome (exec_tokPack s) ht
    | tokUnpack => exact exec_errcode_of_whole_block exec_tokUnpack_other_length (fun h => ⟨_, exec_tokUnpack h⟩) ht
    | tokSeal => exact errcode_of_outcome (exec_tokSeal s) ht
    | aesEnc => exact exec_errcode_of_whole_block exec_aesEnc_other_length (fun h => ⟨_, exec_aesEnc h⟩) ht
    | aesDec => exact exec_errcode_of_whole_block exec_aesDec_other_length (fun h => ⟨_, exec_aesDec h⟩) ht
    | generate => exact errcode_of_outcome (exec_generate s) ht
    | parse => exact exec_parse_errcode ht
    | keyClr => exact errcode_of_outcome (exec_keyClr s) ht
  case illegal => exact errcode_of_outcome (complete_of_illegal hop s) ht

end Sys2Proof.Machine

/-! Reset (spec/70_reset_and_hazards.md): the reset state of R240, and the reset event and the level of the reset input of
R241. -/

namespace Sys2Proof.Machine

/-! ### No completion event -/

/-- In reset no completion event is next. -/
theorem dueCommand_of_inReset {s : State} (hr : s.inReset = true) : s.dueCommand = none := if_pos (.inl hr)

/-- A completion at the same point as a reset event loses to it (spec/60_exceptions.md R218). -/
theorem dueCommand_of_resetAssert {s : State} {rest : List BusEvent} (hb : s.bus = .resetAssert :: rest) :
    s.dueCommand = none :=
  if_pos (.inr (.inr (congrArg List.head? hb)))

/-! ### The delivery of an event -/

/-- An event other than `WAIT` is delivered after one cycle of latency and leaves the bus. -/
theorem step_event {s : State} {e : BusEvent} {rest : List BusEvent} (hd : s.dueCommand = none) (hb : s.bus = e :: rest)
    (he : e ≠ .wait) : step s = .next { s.tick.deliver e with bus := rest } := by
  rw [step_of_not_due hd]
  rcases busCycle_cases s with ⟨hnil, -⟩ | ⟨_, _, hcons, hcycle⟩ | ⟨_, hwait, -⟩
  · cases hnil.symm.trans hb
  · cases hcons.symm.trans hb
    rw [hcycle]
  · cases hwait.symm.trans hb
    exact absurd rfl he

theorem hostRead_of_inReset {s : State} (a : Byte) (hr : s.inReset = true) : s.hostRead a = 0x00 := if_pos hr

theorem hostWrite_of_inReset {s : State} (a v : Byte) (hr : s.inReset = true) : s.hostWrite a v = s := if_pos hr

/-! ### What the registers after a write depend on -/

theorem writeStatus_core (s : State) (v : Byte) :
    (s.writeStatus v).core = { s.core with ovr := if v.getLsbD 5 then false else s.core.ovr } := by
  simp [State.core]

/-- The registers after a store are a function of the registers before it. -/
theorem storeReg_core_congr {s t : State} (r : Reg) (v : Byte) (h : s.core = t.core) :
    (s.storeReg r v).core = (t.storeReg r v).core := by
  cases r with
  | cmd => simp [State.storeReg, h]
  | status => simp [State.storeReg, writeStatus_core, h]
  | errcode => exact h
  | reserved => exact h
  | blkLen => exact congrArg (fun c : CoreState => { c with blkLen := v }) h
  | txtLen => exact congrArg (fun c : CoreState => { c with txtLen := v }) h
  | crcL => exact congrArg (fun c : CoreState => { c with crcAcc := c.crcAcc.extractLsb' 8 8 ++ v }) h
  | crcH => exact congrArg (fun c : CoreState => { c with crcAcc := v ++ c.crcAcc.extractLsb' 0 8 }) h
  | blk i => exact congrArg (fun c : CoreState => { c with blk := c.blk.set i v }) h
  | txt i => exact congrArg (fun c : CoreState => { c with txt := c.txt.set i v }) h
  | key i => exact congrArg (fun c : CoreState => { c with key := c.key.set i v }) h
  | tok i => exact congrArg (fun c : CoreState => { c with tok := c.tok.set i v }) h

/-- The registers after `MemWrite` are a function of the registers before it, `PEND` among them. -/
theorem memWrite_core_congr {s t : State} (a v : Byte) (h : s.core = t.core) :
    (s.memWrite a v).core = (t.memWrite a v).core := by
  have hpend : s.pend = t.pend := congrArg CoreState.pend h
  by_cases ha : a = 0x01
  · rw [ha, memWrite_status, memWrite_status, writeStatus_core, writeStatus_core, h]
  · cases hp : s.pend with
    | none =>
      rw [memWrite_idle s a v hp ha, memWrite_idle t a v (hpend ▸ hp) ha]
      exact storeReg_core_congr _ v h
    | some op =>
      rw [memWrite_busy s a v (busy_of_pend_some s op hp) ha, memWrite_busy t a v (busy_of_pend_some t op (hpend ▸ hp)) ha,
        dropWrite_core, dropWrite_core, h]

/-! ### The obligations -/

/-- Settles O4: every field and every view is a closed value. -/
theorem resetStateValues : Obligations.ResetStateValues :=
  ⟨rfl, rfl, rfl, rfl, rfl⟩

/-- Settles O5, one case per clause: the reset event, a read and a write in reset, the release, a write right after it. -/
theorem resetEvent : Obligations.ResetEvent := by
  refine ⟨?assert, ?read, ?write, ?release, ?writeAfterRelease⟩
  case assert =>
    intro s rest hb
    exact ⟨_, step_event (dueCommand_of_resetAssert hb) hb nofun, rfl, rfl, rfl⟩
  case read =>
    intro s a rest hr hb
    have hzero : s.tick.hostRead a = 0x00 := hostRead_of_inReset a (by simp [hr])
    exact ⟨_, step_event (dueCommand_of_inReset hr) hb nofun, tick_core s, (tick_inReset s).trans hr, hzero, rfl⟩
  case write =>
    intro s a v rest hr hb
    have hkept : s.tick.deliver (.write a v) = s.tick := hostWrite_of_inReset a v (by simp [hr])
    refine ⟨_, step_event (dueCommand_of_inReset hr) hb nofun, ?_⟩
    rw [hkept]
    exact ⟨tick_core s, (tick_inReset s).trans hr, rfl⟩
  case release =>
    intro s rest hr hb
    exact ⟨_, step_event (dueCommand_of_inReset hr) hb nofun, tick_core s, rfl, rfl⟩
  case writeAfterRelease =>
    intro s a v rest hr hp hb
    have hreleased := step_event (dueCommand_of_inReset hr) hb nofun
    have hidle : (s.tick.deliver .resetRelease).pend = none := (tick_pend s).trans hp
    refine ⟨_, _, hreleased, step_write (dueCommand_of_pend_none hidle) rfl rfl, ?_, rfl⟩
    exact memWrite_core_congr a v ((tick_core _).trans (tick_core s))

end Sys2Proof.Machine

/-! The command encoding (spec/30_encoding.md R70, R72), and the step that runs a due command (R71, spec/60_exceptions.md
R213). -/

namespace Sys2Proof.Machine

/-! ### Decoding -/

/-- Every command decodes from its encoding, whatever bytes follow. -/
theorem encodingRoundTrip (i : Instr) : Laws.EncodingRoundTrip.Statement i := by
  cases i with
  | nop => exact Laws.EncodingRoundTrip.nop
  | mhEnc => exact Laws.EncodingRoundTrip.mhEnc
  | mhDec => exact Laws.EncodingRoundTrip.mhDec
  | mhValid => exact Laws.EncodingRoundTrip.mhValid
  | crcInit => exact Laws.EncodingRoundTrip.crcInit
  | crcUpdate => exact Laws.EncodingRoundTrip.crcUpdate
  | crcCheck => exact Laws.EncodingRoundTrip.crcCheck
  | tokPack => exact Laws.EncodingRoundTrip.tokPack
  | tokUnpack => exact Laws.EncodingRoundTrip.tokUnpack
  | tokSeal => exact Laws.EncodingRoundTrip.tokSeal
  | aesEnc => exact Laws.EncodingRoundTrip.aesEnc
  | aesDec => exact Laws.EncodingRoundTrip.aesDec
  | generate => exact Laws.EncodingRoundTrip.generate
  | parse => exact Laws.EncodingRoundTrip.parse
  | keyClr => exact Laws.EncodingRoundTrip.keyClr

theorem decode_encode_append (i : Instr) (rest : List Byte) : decode (encode i ++ rest) = .ok (i, rest) := by
  obtain ⟨-, -, hdecode⟩ := encodingRoundTrip i
  exact hdecode rest

theorem decode_encodeOp (i : Instr) : decode [encodeOp i] = .ok (i, []) := decode_encode_append i []

/-! ### The due command -/

theorem complete_of_decode {op : Byte} {i : Instr} {rest : List Byte} (h : decode [op] = .ok (i, rest)) (s : State) :
    complete op s = exec i s := by
  simp [complete, h]

theorem complete_encodeOp (i : Instr) (s : State) : complete (encodeOp i) s = exec i s :=
  complete_of_decode (decode_encodeOp i) s

/-- A table word of eight bits is laid out as the byte it is. -/
theorem tableBytes_byte (b : Byte) : tableBytes 8 b.toNat = [b] := by
  simp [tableBytes, Nat.mod_eq_of_lt b.isLt]

/-- A placed command is due: no latency is left, and the resets at the head of the bus are taken off it. -/
theorem dueCommand_placeCommand (s : State) (v : Byte) : (s.placeCommand v).dueCommand = some v := by
  refine dueCommand_eq_some.mpr ⟨rfl, rfl, rfl, fun h => ?_⟩
  have hhead := List.head?_dropWhile_not (fun e => decide (e = BusEvent.resetAssert)) s.bus
  rw [placeCommand_bus] at h
  simp [h] at hhead

/-! ### The obligations -/

/-- Settles O1, row by row. -/
theorem opcodeMapDecodes : Obligations.OpcodeMapDecodes :=
  ⟨decode_encodeOp .nop, decode_encodeOp .mhEnc, decode_encodeOp .mhDec, decode_encodeOp .mhValid, decode_encodeOp .crcInit,
    decode_encodeOp .crcUpdate, decode_encodeOp .crcCheck, decode_encodeOp .tokPack, decode_encodeOp .tokUnpack,
    decode_encodeOp .tokSeal, decode_encodeOp .aesEnc, decode_encodeOp .aesDec, decode_encodeOp .generate,
    decode_encodeOp .parse, decode_encodeOp .keyClr⟩

/-- Settles O2: the decoder accepts a byte only as the encoding of the command it answers. -/
theorem decodeEncodeAgree : Obligations.DecodeEncodeAgree := by
  refine ⟨decode_encode_append, fun op i h => ?_⟩
  rcases decode_byte_cases op with ⟨j, rfl, hj⟩ | ⟨-, hrefused⟩
  · cases hj.symm.trans h
    rfl
  · cases hrefused.symm.trans h

/-- Settles O6: what is due is completed, and completing an opcode that decodes to `i` is `exec i`. -/
theorem stepRunsPendingCommand : Obligations.StepRunsPendingCommand := by
  refine ⟨fun s op i hp hr hlat hbus hdec => ?pending, fun s i => ?placed⟩
  case pending =>
    calc step s = complete op s := step_of_due (dueCommand_eq_some.mpr ⟨hp, hr, hlat, hbus⟩)
      _ = exec i s := complete_of_decode hdec s
  case placed =>
    rw [State.withFetchWord, tableBytes_byte, List.headD_cons]
    exact (step_of_due (dueCommand_placeCommand s _)).trans (complete_encodeOp i _)

end Sys2Proof.Machine

/-! The register space (spec/20_memory.md R55..R58): what each address reads as, what a write to a storage register changes,
and the bits of `STATUS` (spec/10_state.md R24, R31). -/

namespace Sys2Proof.Machine

/-! ### Places and addresses -/

/-- The places that store what the host writes and read it back (R57): `KEY` stores but reads 0x00, and the other places
do more than store. -/
def Reg.isStorage : Reg → Bool
  | .blkLen | .txtLen | .crcL | .crcH | .blk _ | .txt _ | .tok _ => true
  | .cmd | .status | .errcode | .key _ | .reserved => false

/-- Every place but the reserved one has a single address. -/
theorem eq_of_decodeAddr_eq {a b : Byte} (h : decodeAddr a = decodeAddr b) (hr : decodeAddr b ≠ .reserved) : a = b := by
  have ha := decodeAddr_holdsAddr a
  have hb := decodeAddr_holdsAddr b
  rw [h] at ha
  apply BitVec.eq_of_toNat_eq
  cases hreg : decodeAddr b <;> simp only [hreg, Reg.holdsAddr] at ha hb
  case reserved => exact absurd hreg hr
  all_goals omega

theorem ne_status_of_decodeAddr {a : Byte} {r : Reg} (h : decodeAddr a = r) (hr : r ≠ .status) : a ≠ 0x01 := by
  rintro rfl
  exact hr (h.symm.trans decodeAddr_status)

/-- The storage addresses of R57. -/
theorem isStorage_decodeAddr {a : Byte} (h : a = 0x03 ∨ a = 0x04 ∨ a = 0x06 ∨ a = 0x07 ∨
    (0x10 ≤ a.toNat ∧ a.toNat ≤ 0x3F) ∨ (0x50 ≤ a.toNat ∧ a.toNat ≤ 0x5F)) : (decodeAddr a).isStorage = true := by
  rcases h with rfl | rfl | rfl | rfl | hrange
  case inr.inr.inr.inr =>
    have ha := decodeAddr_holdsAddr a
    cases hreg : decodeAddr a <;> simp only [hreg, Reg.holdsAddr] at ha
    case cmd | status | errcode | key | reserved => omega
    all_goals rfl
  all_goals rfl

/-! ### Reading a place after a store -/

theorem readReg_storeReg_same (s : State) {r : Reg} (v : Byte) (hr : r.isStorage = true) :
    (s.storeReg r v).readReg r = v := by
  cases r <;> simp_all [Reg.isStorage, State.storeReg, State.readReg]

theorem getElem_set_of_fin_ne {n : Nat} (b : Vector Byte n) {i j : Fin n} (v : Byte) (h : j ≠ i) :
    (b.set i.val v)[j.val] = b[j.val] :=
  Vector.getElem_set_ne _ _ fun hij => h (Fin.ext hij.symm)

/-- A store reaches no other place; only the view `STATUS`, which shows a bit of `TOK`, can follow it. -/
theorem readReg_storeReg_ne (s : State) {r r' : Reg} (v : Byte) (hr : r.isStorage = true) (hne : r' ≠ r)
    (hstatus : r' ≠ .status) : (s.storeReg r v).readReg r' = s.readReg r' := by
  cases r' with
  | status => exact absurd rfl hstatus
  | blk | txt | tok => cases r <;> simp_all [Reg.isStorage, State.storeReg, State.readReg, getElem_set_of_fin_ne]
  | crcL | crcH => cases r <;> simp_all [Reg.isStorage, State.storeReg, State.readReg]
  | cmd | errcode | blkLen | txtLen | key | reserved =>
    cases r <;> simp_all [Reg.isStorage, State.storeReg, State.readReg]

/-- The frame of a store to a storage place. -/
theorem storeReg_frame (s : State) {r : Reg} (v : Byte) (hr : r.isStorage = true) :
    { s.storeReg r v with blkLen := s.blkLen, txtLen := s.txtLen, crcAcc := s.crcAcc, blk := s.blk, txt := s.txt,
                          tok := s.tok } = s := by
  cases r
  case cmd | status | errcode | key | reserved => cases hr
  all_goals rfl

/-- What a read returns is a function of the registers. -/
theorem memRead_core_congr {s t : State} (a : Byte) (h : s.core = t.core) : s.memRead a = t.memRead a := by
  rw [eq_withOutside_of_core_eq h]
  unfold State.memRead
  cases decodeAddr a <;> rfl

/-! ### `KEY` -/

theorem memWrite_key_idle {s : State} (i : Fin 16) (v : Byte) (hp : s.pend = none) :
    s.memWrite (BitVec.ofNat 8 (0x40 + i.val)) v = { s with key := s.key.set i v } := by
  rw [memWrite_idle s _ v hp (ne_status_of_decodeAddr (decodeAddr_key i) nofun), decodeAddr_key]
  rfl

/-! ### `STATUS` -/

/-- The bits of `STATUS` beside those of `status_bit0` and `status_bit4` (R24). -/
theorem status_bits (s : State) :
    s.status.getLsbD 1 = s.done ∧ s.status.getLsbD 2 = s.err ∧ s.status.getLsbD 3 = s.valid ∧
    s.status.getLsbD 5 = s.ovr ∧ s.status.getLsbD 6 = false ∧ s.status.getLsbD 7 = false := by
  simp only [State.status, BitVec.getLsbD_append]
  simp

theorem err_eq_decide (s : State) : s.err = decide (s.errcode ≠ 0x00) := by
  rw [State.err, Bool.eq_iff_iff]
  simp

/-! ### The obligations -/

/-- Settles O13: each range of addresses selects its place, and a place reads as R57 says. -/
theorem registerMapReads : Obligations.RegisterMapReads := by
  intro s
  refine ⟨rfl, rfl, rfl, rfl, rfl, append_extract s.crcAcc, fun i => ?blk, fun i => ?txt, fun i => ?key, fun i => ?tok,
    fun a ha => memRead_reserved s (decodeAddr_eq_reserved ha)⟩
  case blk => rw [State.memRead, decodeAddr_blk]; rfl
  case txt => rw [State.memRead, decodeAddr_txt]; rfl
  case key => rw [State.memRead, decodeAddr_key]; rfl
  case tok => rw [State.memRead, decodeAddr_tok]; rfl

/-- Settles O14: the address selects a storage place, which no other address selects. -/
theorem storageWriteReadsBack : Obligations.StorageWriteReadsBack := by
  intro s a v hp haddr
  have hstorage := isStorage_decodeAddr haddr
  have hstatus : a ≠ 0x01 := ne_status_of_decodeAddr rfl fun h => by simp [h, Reg.isStorage] at hstorage
  have hreserved : decodeAddr a ≠ .reserved := fun h => by simp [h, Reg.isStorage] at hstorage
  rw [memWrite_idle s a v hp hstatus]
  refine ⟨readReg_storeReg_same s v hstorage, fun b hba hb => ?others, storeReg_frame s v hstorage⟩
  case others =>
    exact readReg_storeReg_ne s v hstorage (fun h => hba (eq_of_decodeAddr_eq h hreserved))
      fun h => hb (eq_of_decodeAddr_eq (h.trans decodeAddr_status.symm) nofun)

/-- Settles O15: the write is the update of one element of `KEY`. -/
theorem keyWriteStoresAndReadsZero : Obligations.KeyWriteStoresAndReadsZero := by
  intro s i v hp
  rw [memWrite_key_idle i v hp]
  refine ⟨by simp, fun j hj => getElem_set_of_fin_ne s.key v hj, rfl, ?zero⟩
  case zero => rw [State.memRead, decodeAddr_key]; rfl

/-- Settles O12: the bits as `State.status` lays them out, and the write-1-to-clear bit alone decides what a write does. -/
theorem statusRegister : Obligations.StatusRegister := by
  refine ⟨fun s => ?bits, fun s v hv => ?clears, fun s v hv => ?ignored⟩
  case bits =>
    obtain ⟨hdone, herr, hvalid, hrest⟩ := status_bits s
    exact ⟨memRead_status s, status_bit0 s, hdone, herr.trans (err_eq_decide s), hvalid, status_bit4 s, hrest⟩
  case clears => rw [memWrite_status, State.writeStatus, if_pos hv]
  case ignored => rw [memWrite_status, State.writeStatus, hv, if_neg Bool.false_ne_true]

/-- Settles O17: the dropped write of R58. -/
theorem busyDropsWrites : Obligations.BusyDropsWrites :=
  fun s a v op hp ha => memWrite_busy s a v (busy_of_pend_some s op hp) ha

/-- Settles O10: the read is delivered after a cycle of latency, which no register shows. -/
theorem readTransactionChangesNoRegister : Obligations.ReadTransactionChangesNoRegister := by
  intro s a rest hd hb
  refine ⟨_, step_event hd hb nofun, tick_core s, ?byte, rfl⟩
  case byte =>
    show s.tick.hostRead a = _
    rw [State.hostRead, tick_inReset, memRead_core_congr a (tick_core s)]

end Sys2Proof.Machine

/-! Steps (spec/20_memory.md R55, R62, spec/60_exceptions.md R213): what every completion writes, the invariant that every
step keeps, and which registers a step may change. -/

namespace Sys2Proof.Machine

/-! ### The shapes of a completion -/

theorem CmdError.code_cases (e : CmdError) : e.code = 0x01 ∨ e.code = 0x02 ∨ e.code = 0x03 ∨ e.code = 0x04 := by
  cases e <;> simp [CmdError.code]

/-- The fields that no command has among its result registers, after a completion (R213). -/
theorem complete_fields {op : Byte} {s t : State} (h : complete op s = .next t) :
    t.pend = none ∧ t.done = true ∧ t.cmd = s.cmd ∧ t.ovr = s.ovr ∧
    (t.errcode = 0x00 ∨ t.errcode = 0x01 ∨ t.errcode = 0x02 ∨ t.errcode = 0x03 ∨ t.errcode = 0x04) := by
  rcases complete_completes op s with ⟨e, hraised⟩ | ⟨_, _, _, _, _, _, _, _, hsucceeded⟩
  · cases hraised.symm.trans h
    exact ⟨rfl, rfl, rfl, rfl, .inr e.code_cases⟩
  · cases hsucceeded.symm.trans h
    exact ⟨rfl, rfl, rfl, rfl, .inl rfl⟩

/-- A completion touches nothing outside the registers. -/
theorem complete_outside {op : Byte} {s t : State} (h : complete op s = .next t) :
    t.bus = s.bus ∧ t.rdata = s.rdata ∧ t.inReset = s.inReset ∧ t.latLeft = s.latLeft ∧ t.accepts = s.accepts := by
  rcases complete_completes op s with ⟨e, hraised⟩ | ⟨_, _, _, _, _, _, _, _, hsucceeded⟩
  · cases hraised.symm.trans h
    exact ⟨rfl, rfl, rfl, rfl, rfl⟩
  · cases hsucceeded.symm.trans h
    exact ⟨rfl, rfl, rfl, rfl, rfl⟩

/-! ### The invariant -/

/-- Right after a completion no clause of the invariant but the range of `ERRCODE` says anything of the registers. -/
theorem inv_of_due_complete {s t : State} {op : Byte} (hd : s.dueCommand = some op) (h : complete op s = .next t) :
    t.Inv := by
  obtain ⟨-, hreset, hlat, -⟩ := dueCommand_eq_some.mp hd
  obtain ⟨hpend, hdone, -, -, hcode⟩ := complete_fields h
  obtain ⟨-, -, hreset', hlat', -⟩ := complete_outside h
  exact {
    errcode_le := by rcases hcode with e | e | e | e | e <;> simp [e]
    pending := by simp [hpend]
    latency := fun _ => hlat'.trans hlat
    held_in_reset := by simp [hreset', hreset]
    fresh := by simp [hdone] }

theorem inv_reset : State.reset.Inv where
  errcode_le := Nat.zero_le _
  pending := nofun
  latency _ := rfl
  held_in_reset := nofun
  fresh _ _ := ⟨rfl, rfl, rfl⟩

namespace State.Inv

theorem assertReset (s : State) : s.assertReset.Inv where
  errcode_le := Nat.zero_le _
  pending := nofun
  latency _ := rfl
  held_in_reset _ := rfl
  fresh _ _ := ⟨rfl, rfl, rfl⟩

theorem tick {s : State} (hs : s.Inv) : s.tick.Inv where
  errcode_le := by simpa using hs.errcode_le
  pending := by simpa using hs.pending
  latency := fun hp => by
    have hidle : s.pend = none := (tick_pend s).symm.trans hp
    simp [hidle, hs.latency hidle]
  held_in_reset := by simpa using hs.held_in_reset
  fresh := by simpa using hs.fresh

/-- The events still to come and the byte last read are no part of the invariant. -/
theorem with_bus_rdata {s : State} (hs : s.Inv) (l : List BusEvent) (v : Byte) :
    ({ s with bus := l, rdata := v } : State).Inv :=
  ⟨hs.errcode_le, hs.pending, hs.latency, hs.held_in_reset, hs.fresh⟩

theorem with_inReset_false {s : State} (hs : s.Inv) : ({ s with inReset := false } : State).Inv :=
  ⟨hs.errcode_le, hs.pending, hs.latency, nofun, hs.fresh⟩

/-- Clearing `OVR` is no change while reset is asserted: its reset value is 0. -/
theorem with_ovr_false {s : State} (hs : s.Inv) : ({ s with ovr := false } : State).Inv :=
  ⟨hs.errcode_le, hs.pending, hs.latency,
    fun hr => congrArg (fun c : CoreState => { c with ovr := false }) (hs.held_in_reset hr), hs.fresh⟩

theorem dropWrite {s : State} (hs : s.Inv) (hr : s.inReset = false) : s.dropWrite.Inv :=
  ⟨hs.errcode_le, hs.pending, hs.latency, by simp [hr], hs.fresh⟩

theorem accept {s : State} (hs : s.Inv) (hr : s.inReset = false) (v : Byte) : (s.accept v).Inv :=
  ⟨hs.errcode_le, fun _ hp => ⟨Option.some.inj hp, rfl⟩, nofun, by simp [hr], nofun⟩

theorem with_storage {s : State} (hs : s.Inv) (hr : s.inReset = false) (bl tl : Byte) (ca : Half) (b : Block) (t : Text)
    (k tk : Block) : ({ s with blkLen := bl, txtLen := tl, crcAcc := ca, blk := b, txt := t, key := k, tok := tk } : State).Inv :=
  ⟨hs.errcode_le, hs.pending, hs.latency, by simp [hr], hs.fresh⟩

theorem hostWrite {s : State} (hs : s.Inv) (a v : Byte) : (s.hostWrite a v).Inv := by
  rcases hostWrite_cases s a v with h | h | ⟨hr, -, h⟩ | ⟨hr, -, -, h⟩ | ⟨hr, -, _, _, _, _, _, _, _, h⟩ <;> rw [h]
  · exact hs
  · exact hs.with_ovr_false
  · exact hs.dropWrite hr
  · exact hs.accept hr v
  · exact hs.with_storage hr ..

theorem deliver {s : State} (hs : s.Inv) (e : BusEvent) : (s.deliver e).Inv := by
  cases e with
  | read a => exact hs.with_bus_rdata s.bus _
  | write a v => exact hs.hostWrite a v
  | wait => exact hs.with_bus_rdata s.bus _
  | idle => exact hs
  | resetAssert => exact .assertReset s
  | resetRelease => exact hs.with_inReset_false

theorem busCycle {s : State} (hs : s.Inv) : s.busCycle.Inv := by
  rcases busCycle_cases s with ⟨-, h⟩ | ⟨e, rest, -, h⟩ | ⟨_, -, h, -⟩ <;> rw [h]
  · exact hs.tick
  · exact (hs.tick.deliver e).with_bus_rdata rest _
  · exact hs.tick.deliver .wait

end State.Inv

/-! ### Registers that a step leaves alone -/

/-- An error and the result registers of every command but `MH_VALID` and `CRC_CHECK` leave `VALID` (10_state.md R33). -/
theorem exec_valid_of_no_check {i : Instr} {s t : State} (hmh : i ≠ .mhValid) (hcrc : i ≠ .crcCheck)
    (ht : exec i s = .next t) : t.valid = s.valid := by
  cases i with
  | mhValid => exact absurd rfl hmh
  | crcCheck => exact absurd rfl hcrc
  | mhEnc => rcases execMhEnc_cases s with ⟨-, h⟩ | ⟨-, h⟩ <;> cases h.symm.trans ht <;> rfl
  | mhDec => rcases execMhDec_cases s with ⟨-, _, -, h⟩ | ⟨-, _, -, h⟩ | ⟨-, h⟩ <;> cases h.symm.trans ht <;> rfl
  | crcUpdate => rcases execCrcUpdate_cases s with ⟨-, h⟩ | ⟨-, h⟩ <;> cases h.symm.trans ht <;> rfl
  | tokUnpack => rcases execTokUnpack_cases s with ⟨-, h⟩ | ⟨-, h⟩ <;> cases h.symm.trans ht <;> rfl
  | aesEnc => rcases execAesEnc_cases s with ⟨-, h⟩ | ⟨-, h⟩ <;> cases h.symm.trans ht <;> rfl
  | aesDec => rcases execAesDec_cases s with ⟨-, h⟩ | ⟨-, h⟩ <;> cases h.symm.trans ht <;> rfl
  | parse =>
    rcases execParse_cases s with ⟨-, _, -, -, h⟩ | ⟨-, _, -, -, h⟩ | ⟨-, _, -, h⟩ | ⟨-, h⟩ <;>
      cases h.symm.trans ht <;> rfl
  | nop | crcInit | tokPack | tokSeal | generate | keyClr => cases ht; rfl

/-- The two checks write `VALID` with the success fields or not at all. -/
theorem exec_check_valid {i : Instr} {s t : State} (hi : i = .mhValid ∨ i = .crcCheck) (ht : exec i s = .next t) :
    t.valid = s.valid ∨ t.errcode = 0x00 := by
  rcases hi with rfl | rfl
  · rcases execMhValid_cases s with ⟨-, h⟩ | ⟨-, h⟩ <;> cases h.symm.trans ht
    · exact .inr rfl
    · exact .inl rfl
  · rcases execCrcCheck_cases s with ⟨-, -, h⟩ | ⟨-, h⟩ <;> cases h.symm.trans ht
    · exact .inr rfl
    · exact .inl rfl

theorem complete_valid {op : Byte} {s t : State} (h : complete op s = .next t) (hchange : t.valid ≠ s.valid) :
    (op = 0x03 ∨ op = 0x06) ∧ t.errcode = 0x00 := by
  rcases complete_cases op s with ⟨i, rfl, -, hexec⟩ | ⟨-, hraised⟩
  · rw [hexec] at h
    have hi : i = .mhValid ∨ i = .crcCheck := by
      by_contra hneither
      push Not at hneither
      exact hchange (exec_valid_of_no_check hneither.1 hneither.2 h)
    exact ⟨hi.imp (congrArg encodeOp) (congrArg encodeOp), (exec_check_valid hi h).resolve_left hchange⟩
  · cases hraised.symm.trans h
    exact absurd rfl hchange

/-- Without a reset, no bus cycle writes `VALID`. -/
theorem busCycle_valid {s : State} (h : s.bus.head? ≠ some .resetAssert) : s.busCycle.valid = s.valid := by
  rcases busCycle_core_cases s with ⟨rest, hbus, -⟩ | ⟨_, hcore⟩ | ⟨_, -, hcore⟩ | ⟨-, _, _, _, _, _, _, _, hcore⟩
  case inl => exact absurd (by rw [hbus]; rfl) h
  all_goals exact congrArg CoreState.valid hcore

/-! ### The obligations -/

/-- Settles O9: a completion satisfies the invariant whatever the registers were, and a bus cycle is a tick and the
delivery of an event, which keep it. -/
theorem stepKeepsInvariant : Obligations.StepKeepsInvariant := by
  intro s t hs hstep
  rcases step_cases hstep with ⟨op, hdue, hcomplete⟩ | ⟨-, rfl⟩
  · exact inv_of_due_complete hdue hcomplete
  · exact hs.busCycle

/-- Settles O8, clause by clause. -/
theorem resetSatisfiesInvariant : Obligations.ResetSatisfiesInvariant := inv_reset

/-- Settles O7: a due completion answers one of two shapes of next state, and a bus cycle always answers one. -/
theorem everyStepAnswersNext : Obligations.EveryStepAnswersNext := step_completes

/-- Settles O25: an error writes its code, a success 0x00, and neither reaches `CMD` or `OVR`. -/
theorem completionFields : Obligations.CompletionFields := fun _ _ _ h => complete_fields h

/-- Settles O18: a completion and a reset leave nothing pending, and every other bus cycle that meets a pending command
writes at most `OVR`. -/
theorem operandsFixedWhileBusy : Obligations.OperandsFixedWhileBusy := by
  intro s t op op' hpend hstep hpend'
  have hbusy : s.busy = true := busy_of_pend_some s op hpend
  rcases step_cases hstep with ⟨_, -, hcomplete⟩ | ⟨-, rfl⟩
  · obtain ⟨hnone, -⟩ := complete_fields hcomplete
    cases hnone.symm.trans hpend'
  · rcases busCycle_core_cases s with ⟨_, -, hcore⟩ | ⟨_, hcore⟩ | ⟨_, hidle, -⟩ | ⟨hidle, -⟩
    · cases (congrArg CoreState.pend hcore).symm.trans hpend'
    · rw [hcore]
      rfl
    · cases hidle.symm.trans hbusy
    · cases hidle.symm.trans hbusy

/-- Settles O20: of all completions only those of the two checks write `VALID`, and of all bus cycles only a reset. -/
theorem validWrittenOnlyByChecks : Obligations.ValidWrittenOnlyByChecks := by
  intro s t hstep hchange
  rcases step_cases hstep with ⟨op, hdue, hcomplete⟩ | ⟨-, rfl⟩
  · obtain ⟨hop, hcode⟩ := complete_valid hcomplete hchange
    exact .inr ⟨by simpa [hdue] using hop, hcode⟩
  · refine .inl ?_
    by_contra hreset
    exact hchange (busCycle_valid hreset)

/-- Settles O24: a state with the same registers is the same state with another outside, and `exec` neither reads nor
writes the outside. -/
theorem completionIndependentOfSchedule : Obligations.CompletionIndependentOfSchedule := by
  intro i s s' t hcore h
  refine ⟨⟨t.withOutside s', ?_, rfl⟩, complete_outside ((complete_encodeOp i s).trans h)⟩
  rw [eq_withOutside_of_core_eq hcore]
  exact exec_withOutside s' h

end Sys2Proof.Machine

/-! Accepted commands complete (spec/20_memory.md R63, R64, R66, spec/70_reset_and_hazards.md R245). The cycle count is the
model's bookkeeping of the open parameter `LAT`. -/

namespace Sys2Proof.Machine

/-! ### The cycles of the latency -/

/-- While latency is left no completion is due. -/
theorem dueCommand_of_latLeft {s : State} (h : s.latLeft ≠ 0) : s.dueCommand = none := if_pos (.inr (.inl h))

/-- An event that the host delivers to a pending command out of reset changes nothing of the command's progress. -/
theorem deliver_pending {s : State} {e : BusEvent} (hbusy : s.busy = true) (hr : s.inReset = false)
    (he : e ≠ .resetAssert) :
    { (s.deliver e).core with ovr := s.ovr } = s.core ∧ (s.deliver e).inReset = false ∧
      (s.deliver e).latLeft = s.latLeft ∧ (s.deliver e).bus = s.bus := by
  cases e with
  | resetAssert => exact absurd rfl he
  | read | wait | idle => exact ⟨rfl, hr, rfl, rfl⟩
  | resetRelease => exact ⟨rfl, rfl, rfl, rfl⟩
  | write a v =>
    simp only [State.deliver]
    rcases hostWrite_cases s a v with h | h | ⟨-, -, h⟩ | ⟨-, hidle, -⟩ | ⟨-, hidle, -⟩
    · rw [h]; exact ⟨rfl, hr, rfl, rfl⟩
    · rw [h]; exact ⟨rfl, hr, rfl, rfl⟩
    · rw [h]; exact ⟨rfl, hr, rfl, rfl⟩
    · cases hidle.symm.trans hbusy
    · cases hidle.symm.trans hbusy

/-- A bus cycle of a pending command takes one cycle off its latency and keeps its opcode and operands (R66). -/
theorem busCycle_pending {s : State} {op : Byte} (hp : s.pend = some op) (hr : s.inReset = false)
    (hb : BusEvent.resetAssert ∉ s.bus) :
    { s.busCycle.core with ovr := s.ovr } = s.core ∧ s.busCycle.inReset = false ∧
      s.busCycle.latLeft = s.latLeft - 1 ∧ BusEvent.resetAssert ∉ s.busCycle.bus := by
  have hbusy : s.busy = true := busy_of_pend_some s op hp
  have hlat : s.tick.latLeft = s.latLeft - 1 := by simp [hbusy]
  have hdeliver {e : BusEvent} (he : e ∈ s.bus) := deliver_pending (s := s.tick) (e := e) (by simp [hbusy]) (by simp [hr])
    fun h => hb (h ▸ he)
  simp only [tick_core, tick_ovr, tick_bus, hlat] at hdeliver
  rcases busCycle_cases s with ⟨hnil, h⟩ | ⟨e, rest, hcons, h⟩ | ⟨rest, hcons, h, -⟩ <;> rw [h]
  · exact ⟨by rw [tick_core]; rfl, by simp [hr], hlat, by simp [hnil]⟩
  · obtain ⟨hcore, hreset, hlat', -⟩ := hdeliver (e := e) (by simp [hcons])
    exact ⟨hcore, hreset, hlat', by simp_all⟩
  · obtain ⟨hcore, hreset, hlat', hbus⟩ := hdeliver (e := .wait) (by simp [hcons])
    exact ⟨hcore, hreset, hlat', by rwa [hbus]⟩

/-- A pending command that no reset meets is due after the cycles its latency leaves, on the operands it was accepted
with. -/
theorem run_latency {s : State} {op : Byte} (hp : s.pend = some op) (hr : s.inReset = false)
    (hb : BusEvent.resetAssert ∉ s.bus) :
    ∃ u, run s.latLeft s = .next u ∧ { u.core with ovr := s.ovr } = s.core ∧ u.dueCommand = some op := by
  induction hn : s.latLeft generalizing s with
  | zero =>
    exact ⟨s, rfl, rfl, dueCommand_eq_some.mpr ⟨hp, hr, hn, fun h => hb (List.mem_of_head? h)⟩⟩
  | succ n ih =>
    obtain ⟨hcore, hr', hlat, hb'⟩ := busCycle_pending hp hr hb
    have hp' : s.busCycle.pend = some op := (congrArg CoreState.pend hcore).trans hp
    obtain ⟨u, hrun, hcore', hdue⟩ := ih hp' hr' hb' (by omega)
    refine ⟨u, ?_, ?_, hdue⟩
    · rw [run_succ (step_of_not_due (dueCommand_of_latLeft (by omega))), hrun]
    · rw [← hcore, ← hcore']

/-! ### The `WAIT` loop -/

/-- The bit the loop tests is `BUSY` (R82, 10_state.md R24). -/
theorem wait_polls_busy {s : State} (hr : s.inReset = false) : (s.tick.deliver .wait).rdata.getLsbD 0 = s.busy := by
  have hread : (s.tick.deliver .wait).rdata = s.tick.status := if_neg (by simp [hr])
  rw [hread, status_bit0, tick_busy]

/-- The loop goes on while a command is pending. -/
theorem busCycle_wait_busy {s : State} {rest : List BusEvent} (hbusy : s.busy = true) (hr : s.inReset = false)
    (hb : s.bus = .wait :: rest) : s.busCycle = s.tick.deliver .wait := by
  simp only [State.busCycle, hb, eventConsumed, wait_polls_busy hr, hbusy]
  rfl

/-- The loop ends when none is. -/
theorem busCycle_wait_idle {s : State} {rest : List BusEvent} (hp : s.pend = none) (hr : s.inReset = false)
    (hb : s.bus = .wait :: rest) : s.busCycle = { s.tick.deliver .wait with bus := rest } := by
  simp only [State.busCycle, hb, eventConsumed, wait_polls_busy hr, busy_of_pend_none s hp]
  rfl

/-- A host that polls leaves the pending command alone and keeps polling, whatever it means to do afterwards. -/
theorem run_latency_wait {s : State} {op : Byte} {rest : List BusEvent} (hp : s.pend = some op) (hr : s.inReset = false)
    (hb : s.bus = .wait :: rest) :
    ∃ u, run s.latLeft s = .next u ∧ u.core = s.core ∧ u.dueCommand = some op ∧ u.bus = .wait :: rest := by
  induction hn : s.latLeft generalizing s with
  | zero => exact ⟨s, rfl, rfl, dueCommand_eq_some.mpr ⟨hp, hr, hn, by simp [hb]⟩, hb⟩
  | succ n ih =>
    have hbusy : s.busy = true := busy_of_pend_some s op hp
    have hcycle : step s = .next (s.tick.deliver .wait) := by
      rw [step_of_not_due (dueCommand_of_latLeft (by omega)), busCycle_wait_busy hbusy hr hb]
    obtain ⟨u, hrun, hcore, hdue, hbus⟩ := ih (s := s.tick.deliver .wait) (by simpa [State.deliver] using hp)
      (by simpa [State.deliver] using hr) (by simpa [State.deliver] using hb) (by simp [State.deliver, hbusy, hn])
    exact ⟨u, (run_succ hcycle n).trans hrun, hcore.trans (tick_core s), hdue, hbus⟩

/-! ### Completions on the same registers -/

theorem raise_core_congr {s s' : State} (e : CmdError) (h : s.core = s'.core) : (s'.raise e).core = (s.raise e).core :=
  congrArg (fun c : CoreState => { c with errcode := e.code, done := true, pend := none }) h.symm

/-- The registers after a completion are a function of the registers before it. -/
theorem complete_core_congr {op : Byte} {s s' t : State} (hcore : s.core = s'.core) (h : complete op s = .next t) :
    ∃ t', complete op s' = .next t' ∧ t'.core = t.core := by
  rcases complete_cases op s with ⟨i, rfl, -, hexec⟩ | ⟨hop, hraised⟩
  · obtain ⟨hsame, -⟩ := completionIndependentOfSchedule i s s' t hcore (hexec.symm.trans h)
    rwa [complete_encodeOp]
  · cases hraised.symm.trans h
    exact ⟨_, complete_of_illegal hop s', raise_core_congr .illegalCommand hcore⟩

theorem complete_answers (op : Byte) (s : State) : ∃ t, complete op s = .next t := by
  rcases complete_completes op s with ⟨_, h⟩ | ⟨_, _, _, _, _, _, _, _, h⟩ <;> exact ⟨_, h⟩

/-! ### The obligations -/

/-- Settles O22: the latency runs down on fixed operands, and the step after it is the completion. -/
theorem pendingCommandCompletes : Obligations.PendingCommandCompletes := by
  intro s op hp hr hb
  obtain ⟨u, hrun, hcore, hdue⟩ := run_latency hp hr hb
  obtain ⟨t, ht⟩ := complete_answers op u
  obtain ⟨hpend, hdone, -⟩ := complete_fields ht
  refine ⟨u, t, hrun, hcore, ht, ?_, hpend, hdone⟩
  rw [run_add _ 1 hrun, run_succ ((step_of_due hdue).trans ht), run_zero]

/-- Settles O23: the acceptance, the latency under a `WAIT` that stays, the completion, and the poll that ends the `WAIT`. -/
theorem canonicalProtocolCompletes : Obligations.CanonicalProtocolCompletes := by
  intro s op rest hr hp hb
  obtain ⟨a, haccept, hacore, hap, har, hab⟩ : ∃ a, step s = .next a ∧ a.core = (s.accept op).core ∧
      a.pend = some op ∧ a.inReset = false ∧ a.bus = .wait :: rest := by
    refine ⟨_, step_write (dueCommand_of_pend_none hp) hr hb, ?_⟩
    rw [memWrite_cmd_idle op (by simp [hp])]
    exact ⟨by rw [core_with_bus, accept_core, tick_core, accept_core], rfl, by simp [hr], rfl⟩
  obtain ⟨u, hlatency, hucore, hdue, hub⟩ := run_latency_wait hap har hab
  obtain ⟨c, hc⟩ := complete_answers op (s.accept op)
  obtain ⟨t, ht, htcore⟩ := complete_core_congr (hucore.trans hacore).symm hc
  obtain ⟨htp, htdone, -⟩ := complete_fields ht
  obtain ⟨htb, -, htr, -⟩ := complete_outside ht
  have hidle : step t = .next { t.tick.deliver .wait with bus := rest } := by
    obtain ⟨-, hur, -⟩ := dueCommand_eq_some.mp hdue
    rw [step_of_not_due (dueCommand_of_pend_none htp), busCycle_wait_idle htp (htr.trans hur) (htb.trans hub)]
  refine ⟨a.latLeft + 2 + 1, { t.tick.deliver .wait with bus := rest }, c, ?_, hc, (tick_core t).trans htcore, rfl, ?_, ?_⟩
  · rw [run_succ haccept, run_add _ 2 hlatency, run_succ ((step_of_due hdue).trans ht), run_succ hidle, run_zero]
  · exact busy_of_pend_none _ ((tick_pend t).trans htp)
  · exact (tick_done t).trans htdone

end Sys2Proof.Machine

/-! `KEY` is write-only (spec/10_state.md R31): what the core does and shows without a command that reads `KEY` is the same
under every key, `KEY` itself apart. -/

namespace Sys2Proof.Machine

/-! ### The same registers under another key -/

def State.withKey (s : State) (k : Block) : State := { s with key := k }

@[simp] theorem withKey_inReset (s : State) (k : Block) : (s.withKey k).inReset = s.inReset := rfl
@[simp] theorem withKey_bus (s : State) (k : Block) : (s.withKey k).bus = s.bus := rfl
@[simp] theorem withKey_rdata (s : State) (k : Block) : (s.withKey k).rdata = s.rdata := rfl
@[simp] theorem withKey_dueCommand (s : State) (k : Block) : (s.withKey k).dueCommand = s.dueCommand := rfl

/-! ### Completions -/

theorem completeWith_withKey {run : State → Except CmdError State} {s t : State} {k : Block}
    (hrun : run (s.withKey k) = (run s).map (·.withKey k)) (h : s.completeWith (run s) = .next t) :
    (s.withKey k).completeWith (run (s.withKey k)) = .next (t.withKey k) := by
  rw [hrun]
  cases hs : run s <;> rw [hs] at h <;> cases h <;> rfl

/-- A command that does not read `KEY` leaves it or, for `KEY_CLR`, overwrites it with a fixed key. -/
theorem exec_withKey {i : Instr} {s t : State} (hi : readsKey (encodeOp i) = false) (k : Block)
    (h : exec i s = .next t) : ∃ k', exec i (s.withKey k) = .next (t.withKey k') := by
  have hblk : (s.withKey k).blkOperand = s.blkOperand := rfl
  have hcrc : (s.withKey k).crcOperand = s.crcOperand := rfl
  have hblock : (s.withKey k).blockOperand = s.blockOperand := rfl
  have htxt : (s.withKey k).txtOperand = s.txtOperand := rfl
  cases i with
  | aesEnc | aesDec | generate | parse => cases hi
  | mhEnc => exact ⟨k, completeWith_withKey (by simp only [runMhEnc, hblk]; cases s.blkOperand <;> rfl) h⟩
  | mhDec =>
    refine ⟨k, completeWith_withKey ?_ h⟩
    simp only [runMhDec, htxt]
    cases s.txtOperand with
    | error e => rfl
    | ok l => simp only [bind, Except.bind]; cases modHexDecode l <;> rfl
  | mhValid => exact ⟨k, completeWith_withKey (by simp only [runMhValid, htxt]; cases s.txtOperand <;> rfl) h⟩
  | crcUpdate => exact ⟨k, completeWith_withKey (by simp only [runCrcUpdate, hblk]; cases s.blkOperand <;> rfl) h⟩
  | crcCheck => exact ⟨k, completeWith_withKey (by simp only [runCrcCheck, hcrc]; cases s.crcOperand <;> rfl) h⟩
  | tokUnpack => exact ⟨k, completeWith_withKey (by simp only [runTokUnpack, hblock]; cases s.blockOperand <;> rfl) h⟩
  | nop | crcInit | tokPack | tokSeal => cases h; exact ⟨k, rfl⟩
  | keyClr => cases h; exact ⟨Vector.replicate 16 0x00, rfl⟩

theorem complete_withKey {op : Byte} {s t : State} (hop : readsKey op = false) (k : Block)
    (h : complete op s = .next t) : ∃ k', complete op (s.withKey k) = .next (t.withKey k') := by
  rcases complete_cases op s with ⟨i, rfl, -, hexec⟩ | ⟨hillegal, hraised⟩
  · rw [complete_encodeOp]
    exact exec_withKey hop k (hexec.symm.trans h)
  · cases hraised.symm.trans h
    exact ⟨k, complete_of_illegal hillegal _⟩

/-! ### Bus cycles -/

/-- Every address of `KEY` reads 0x00, and no view in `STATUS` shows a bit of it. -/
theorem hostRead_withKey (s : State) (k : Block) (a : Byte) : (s.withKey k).hostRead a = s.hostRead a := by
  have hread : (s.withKey k).memRead a = s.memRead a := by
    unfold State.memRead
    cases decodeAddr a <;> rfl
  rw [State.hostRead, hread]
  rfl

theorem writeStatus_withKey (s : State) (k : Block) (v : Byte) :
    (s.withKey k).writeStatus v = (s.writeStatus v).withKey k := by
  unfold State.writeStatus
  split <;> rfl

/-- A store reads no key, and a store to `KEY[i]` replaces that byte of whatever key there is. -/
theorem storeReg_withKey (s : State) (k : Block) (r : Reg) (v : Byte) :
    ∃ k', (s.withKey k).storeReg r v = (s.storeReg r v).withKey k' := by
  cases r with
  | key i => exact ⟨k.set i v, rfl⟩
  | status => exact ⟨k, writeStatus_withKey s k v⟩
  | _ => exact ⟨k, rfl⟩

theorem hostWrite_withKey (s : State) (k : Block) (a v : Byte) :
    ∃ k', (s.withKey k).hostWrite a v = (s.hostWrite a v).withKey k' := by
  cases hr : s.inReset with
  | true => exact ⟨k, (hostWrite_of_inReset (s := s.withKey k) a v hr).trans (by rw [hostWrite_of_inReset a v hr])⟩
  | false =>
    simp only [State.hostWrite, withKey_inReset, hr, Bool.false_eq_true, if_false]
    by_cases ha : a = 0x01
    · exact ⟨k, by rw [ha, memWrite_status, memWrite_status, writeStatus_withKey]⟩
    · cases hp : s.pend with
      | none =>
        rw [memWrite_idle s a v hp ha, memWrite_idle (s.withKey k) a v hp ha]
        exact storeReg_withKey s k _ v
      | some op =>
        rw [memWrite_busy s a v (busy_of_pend_some s op hp) ha, memWrite_busy (s.withKey k) a v (busy_of_pend_some _ op hp) ha]
        exact ⟨k, rfl⟩

theorem deliver_withKey (s : State) (k : Block) (e : BusEvent) :
    ∃ k', (s.withKey k).deliver e = (s.deliver e).withKey k' := by
  cases e with
  | read a => exact ⟨k, by rw [State.deliver, hostRead_withKey]; rfl⟩
  | write a v => exact hostWrite_withKey s k a v
  | wait => exact ⟨k, by rw [State.deliver, hostRead_withKey]; rfl⟩
  | idle | resetRelease => exact ⟨k, rfl⟩
  | resetAssert => exact ⟨State.reset.key, rfl⟩

theorem tick_withKey (s : State) (k : Block) : (s.withKey k).tick = s.tick.withKey k := by
  rw [State.tick, State.tick, show (s.withKey k).busy = s.busy from rfl]
  split <;> rfl

theorem busCycle_withKey (s : State) (k : Block) : ∃ k', (s.withKey k).busCycle = s.busCycle.withKey k' := by
  cases hb : s.bus with
  | nil => exact ⟨k, by simp [State.busCycle, hb, tick_withKey]⟩
  | cons e rest =>
    obtain ⟨k', hdeliver⟩ := deliver_withKey s.tick k e
    refine ⟨k', ?_⟩
    simp only [State.busCycle, withKey_bus, hb, tick_withKey, hdeliver, withKey_rdata]
    split <;> rfl

/-! ### The obligation -/

/-- Settles O21: the other state is the first under another key, and a completion that reads no key and a bus cycle
commute with exchanging the key. -/
theorem keyIsOpaque : Obligations.KeyIsOpaque := by
  intro s s' t hsame hreads hstep
  obtain ⟨k, rfl⟩ : ∃ k, s' = s.withKey k := ⟨s'.key, hsame.symm⟩
  rcases step_cases hstep with ⟨op, hdue, hcomplete⟩ | ⟨hdue, rfl⟩
  · obtain ⟨k', h⟩ := complete_withKey (hreads op hdue) k hcomplete
    exact ⟨t.withKey k', (step_of_due ((withKey_dueCommand s k).trans hdue)).trans h, rfl⟩
  · obtain ⟨k', h⟩ := busCycle_withKey s k
    exact ⟨s.busCycle.withKey k', (step_of_not_due ((withKey_dueCommand s k).trans hdue)).trans (congrArg _ h), rfl⟩

end Sys2Proof.Machine

/-! The second form of `CrcStep` (spec/41_crc16.md R120), the timestamp (spec/42_token.md R142), and the token written byte
by byte over the bus and then sealed (R147), by a `WRN` line (spec/30_encoding.md R82). -/

namespace Sys2Proof.Machine

/-! ### The timestamp -/

/-- A word shifted over a narrower one is the two appended. -/
theorem shiftLeft_or_setWidth_eq_append {n m : Nat} (hi : BitVec n) (lo : BitVec m) :
    (hi.setWidth (n + m) <<< m ||| lo.setWidth (n + m)) = hi ++ lo := by
  ext i hlt
  by_cases h : i < m
  · simp [BitVec.getElem_append, h]
  · simp [BitVec.getElem_append, h, BitVec.getLsbD_of_ge lo i (by omega), BitVec.getLsbD_eq_getElem (show i - m < n by omega)]

theorem tokenTimestamp_eq_append (t : Block) : tokenTimestamp t = t[10] ++ (t[9] ++ t[8]) := by
  rw [← u16le_eq_append]
  exact shiftLeft_or_setWidth_eq_append t[10] (u16le t[8] t[9])

theorem toNat_append_eq_add {n m : Nat} (hi : BitVec n) (lo : BitVec m) :
    (hi ++ lo).toNat = hi.toNat * 2 ^ m + lo.toNat := by
  rw [BitVec.toNat_append, ← Nat.shiftLeft_add_eq_or_of_lt lo.isLt, Nat.shiftLeft_eq]

/-! ### A run of writes -/

/-- A `WRN` line byte by byte: the address rises by one each time. -/
theorem writeRun_eq_mapIdx (a : Byte) (l : List Byte) :
    writeRun a l = l.mapIdx fun i b => .write (a + BitVec.ofNat 8 i) b := by
  induction l generalizing a with
  | nil => rfl
  | cons b l ih =>
    have haddr (i : Nat) : a + 1#8 + BitVec.ofNat 8 i = a + BitVec.ofNat 8 (i + 1) := by
      rw [BitVec.add_assoc, Nat.add_comm i 1, BitVec.ofNat_add]
    simp [writeRun, ih, List.mapIdx_cons, haddr]

theorem writeRun_concat (a : Byte) (l : List Byte) (b : Byte) :
    writeRun a (l ++ [b]) = writeRun a l ++ [.write (a + BitVec.ofNat 8 l.length) b] := by
  simp only [writeRun_eq_mapIdx, List.mapIdx_concat]

theorem overlay_nil {n : Nat} (v : Vector Byte n) : overlay v [] = v := overlay_take_self v 0

theorem overlay_concat {n : Nat} (v : Vector Byte n) (l : List Byte) (b : Byte) (h : l.length < n) :
    overlay v (l ++ [b]) = (overlay v l).set l.length b := by
  ext i hi
  rw [overlay_getElem _ _ i hi, Vector.getElem_set, overlay_getElem _ _ i hi]
  rcases lt_trichotomy i l.length with hlt | rfl | hgt
  · simp [hlt, hlt.ne', Nat.lt_succ_of_lt hlt]
  · simp
  · simp [show ¬ i < l.length by omega, show ¬ i < l.length + 1 by omega, hgt.ne]

theorem deliver_write_tok {s : State} (hr : s.inReset = false) (hp : s.pend = none) (i : Fin 16) (b : Byte) :
    s.deliver (.write (BitVec.ofNat 8 (0x50 + i.val)) b) = { s with tok := s.tok.set i b } := by
  have hwrite : s.deliver (.write (BitVec.ofNat 8 (0x50 + i.val)) b) = s.memWrite (BitVec.ofNat 8 (0x50 + i.val)) b :=
    if_neg (by simp [hr])
  rw [hwrite, memWrite_idle s _ b hp (ne_status_of_decodeAddr (decodeAddr_tok i) nofun), decodeAddr_tok]
  rfl

/-- A run of writes from `TOK[0]` on replaces the leading bytes of `TOK` and nothing else. -/
theorem foldl_deliver_writeRun_tok {s : State} (hr : s.inReset = false) (hp : s.pend = none) {l : List Byte}
    (hl : l.length ≤ 16) : (writeRun 0x50 l).foldl State.deliver s = { s with tok := overlay s.tok l } := by
  induction l using List.reverseRecOn with
  | nil => rw [overlay_nil]; rfl
  | append_singleton l b ih =>
    have hlen : l.length < 16 := by simpa using hl
    have haddr : (0x50 : Byte) + BitVec.ofNat 8 l.length = BitVec.ofNat 8 (0x50 + l.length) := (BitVec.ofNat_add ..).symm
    rw [writeRun_concat, List.foldl_append, ih hlen.le, haddr, overlay_concat _ _ _ hlen]
    exact deliver_write_tok (s := { s with tok := overlay s.tok l }) hr hp ⟨l.length, hlen⟩ b

/-! ### Sealed fields -/

theorem serialize14_overlay_serialize14 (t p : Block) : serialize14 (overlay t (serialize14 p)) = serialize14 p := by
  have h := overlay_toList_take t (serialize14 p) (by simp)
  rwa [serialize14_length] at h

/-- Sealing the block of a field tuple exchanges its CRC and no other field. -/
theorem sealToken_packFields (f : TokenFields) :
    sealToken (packFields f) = packFields { f with crc := sealValue (packFields f) } := by
  have hsealed := serialize14_packFields_with_crc f (sealValue (packFields f))
  apply Vector.toList_inj.mp
  rw [sealToken_toList, ← serialize14_append_crc (packFields { f with crc := _ }), tokenFields_packFields, hsealed]

/-! ### The obligations -/

/-- Settles O35: both forms are eight shifts of the register with the byte XORed in. -/
theorem crcStepFormsAgree : Obligations.CrcStepFormsAgree := by
  intro c b
  rw [crcStep_eq_iterate, crcStepByteAtOnce, List.foldl_const, List.length_range]

/-- Settles O45: the timestamp is its three bytes appended, the last one highest. -/
theorem timestampValue : Obligations.TimestampValue := by
  intro t
  rw [tokenTimestamp_eq_append, toNat_append_eq_add, toNat_append_eq_add]
  omega

/-- Settles O46: the run of writes gives a block with the sealed bytes of `Pack`, on which alone `Seal` depends. -/
theorem fieldWritesThenSealIsFromFields : Obligations.FieldWritesThenSealIsFromFields := by
  intro f s hr hp
  dsimp only
  have hwritten : (expandLine (.wrn 0x50 (serialize14 (packFields f)))).foldl State.deliver s =
      { s with tok := overlay s.tok (serialize14 (packFields f)) } := foldl_deliver_writeRun_tok hr hp (by simp)
  have hsealed : sealToken (overlay s.tok (serialize14 (packFields f))) = fromFields f := by
    rw [fromFields_eq_sealToken, sealToken_congr (serialize14_overlay_serialize14 s.tok (packFields f))]
  rw [hwritten]
  refine ⟨_, exec_tokSeal _, hsealed, rfl, ?fields⟩
  case fields => rw [succeed_tok, hsealed, fromFields_eq_sealToken, sealToken_packFields, tokenFields_packFields]

/-- Settles O60: the bound on the line's end keeps the rising address from wrapping. -/
theorem writeRunExpansion : Obligations.WriteRunExpansion := by
  intro a bytes hwf
  have hfits : a.toNat + bytes.length ≤ 256 := of_decide_eq_true hwf
  simp only [expandLine, writeRun_eq_mapIdx]
  refine ⟨List.length_mapIdx, fun i hi => ⟨a + BitVec.ofNat 8 i, ?address, ?write⟩⟩
  case address =>
    rw [BitVec.toNat_add, BitVec.toNat_ofNat]
    omega
  case write => simp [hi]

end Sys2Proof.Machine

/-! AES-128 (spec/43_aes.md): the algebraic definition of the S-box (R162), and the inverses of R167 and R171 on the other
side. -/

namespace Sys2Proof.Machine

/-! ### The S-box -/

/-- The inverse of the linear part of `SBOX`: the rotations that undo those of `sboxAffine`. -/
def sboxAffineInv (b : Byte) : Byte := b.rotateLeft 1 ^^^ b.rotateLeft 3 ^^^ b.rotateLeft 6

/-- The linear part of `SBOX` is undone, so what `SBOX` applies it to can be read off the table. -/
theorem sboxAffine_sboxAffineInv (b : Byte) : sboxAffine (sboxAffineInv b) = b := by
  revert b
  decide +kernel

/-- What the table of R162 applies the linear part to is the inverse in GF(2^8). -/
theorem gmul_sboxAffineInv_sbox {x : Byte} (hx : x ≠ 0x00) : gmul x (sboxAffineInv (sbox x ^^^ 0x63)) = 0x01 := by
  have checked : ∀ x : Byte, x ≠ 0x00 → gmul x (sboxAffineInv (sbox x ^^^ 0x63)) = 0x01 := by decide +kernel
  exact checked x hx

/-! ### Left inverses on finite types -/

/-- A left inverse of a map of a finite type to itself is a right inverse too: the map is injective, hence onto. -/
theorem rightInverse_of_leftInverse_of_finite {α : Type} [Finite α] {f g : α → α} (h : Function.LeftInverse g f) :
    Function.RightInverse g f :=
  h.rightInverse_of_surjective (Finite.surjective_of_injective h.injective)

theorem finite_aesColumn : Finite AesColumn :=
  Finite.of_injective (fun a : AesColumn => (a.r0, a.r1, a.r2, a.r3)) fun a b h => by
    cases a
    cases b
    simpa using h

theorem finite_block : Finite Block :=
  Finite.of_injective (fun (b : Block) (i : Fin 16) => b[i]) fun _ _ h => Vector.ext fun i hi => congrFun h ⟨i, hi⟩

theorem mixColumn_invMixColumn (a : AesColumn) : mixColumn (invMixColumn a) = a :=
  haveI := finite_aesColumn
  rightInverse_of_leftInverse_of_finite invMixColumn_mixColumn a

theorem aesEncrypt_aesDecrypt (k p : Block) : aesEncrypt k (aesDecrypt k p) = p :=
  haveI := finite_block
  rightInverse_of_leftInverse_of_finite (aesDecrypt_aesEncrypt k) p

/-! ### The obligations -/

/-- Settles O50: the inverse in GF(2^8) is the table's entry with the affine map undone. -/
theorem sboxDefinition : Obligations.SboxDefinition := by
  refine ⟨by decide, fun x hx => ⟨_, gmul_sboxAffineInv_sbox hx, ?affine⟩, invSbox_sbox⟩
  case affine => rw [sboxAffine_sboxAffineInv, BitVec.xor_assoc, BitVec.xor_self, BitVec.xor_zero]

/-- Settles O52: a column has finitely many values, so the one-sided inverse is two-sided. -/
theorem mixColumnsInverse : Obligations.MixColumnsInverse :=
  fun a => ⟨invMixColumn_mixColumn a, mixColumn_invMixColumn a⟩

/-- Settles O53: under a fixed key the cipher is a map of the blocks to themselves, of which there are finitely many. -/
theorem aesInverse : Obligations.AesInverse :=
  fun k p => ⟨aesDecrypt_aesEncrypt k p, aesEncrypt_aesDecrypt k p⟩

end Sys2Proof.Machine

/-! The composite commands as sequences of single ones (spec/44_otp.md R192). -/

namespace Sys2Proof.Machine

/-! ### `GENERATE` in three commands -/

/-- The text of a whole block, by `MH_ENC`. -/
theorem exec_mhEnc_block {s : State} (h : s.blkLen = 16) :
    exec .mhEnc s = .next { s with txt := overlay s.txt (modHexEncode s.blk.toList), txtLen := 32 }.succeed := by
  rw [exec_mhEnc (by simp [h]), h, List.take_of_length_le (by simp)]
  rfl

/-! ### `PARSE` in four commands -/

/-- The block of a full text of modhex characters, by `MH_DEC`. -/
theorem exec_mhDec_text {s : State} (hlen : s.txtLen = 32) (htext : ∀ i : Fin 32, s.txt[i] ∈ modhexAlphabet) :
    exec .mhDec s = .next { s with blk := blockOf (mhDecPairs s.txt.toList), blkLen := 16 }.succeed := by
  have hwhole : s.txt.toList.take s.txtLen.toNat = s.txt.toList := List.take_of_length_le (by simp [hlen])
  have hdec : modHexDecode (s.txt.toList.take s.txtLen.toNat) = .ok (mhDecPairs s.txt.toList) := by
    rw [modHexDecode_take_eq_ok (by simp [hlen]) (by simp [hlen]) fun i _ => htext i, hwhole]
  have hblk : overlay s.blk (mhDecPairs s.txt.toList) = blockOf (mhDecPairs s.txt.toList) := by
    apply Vector.toList_inj.mp
    rw [overlay_toList_of_length _ _ (by simp), blockOf_toList _ (by simp)]
  rw [exec_mhDec (by simp [hlen]) hdec, hblk, hlen]
  rfl

/-- The residue check of a whole block, by `CRC_CHECK`. -/
theorem exec_crcCheck_block {s : State} (h : s.blkLen = 16) :
    exec .crcCheck s = .next { s with valid := tokenValid s.blk }.succeed := by
  rw [exec_crcCheck (by simp [h]) (by simp [h]), h, List.take_of_length_le (by simp)]
  rfl

/-- The four commands of R192: `VALID` is the residue check of the decrypted block, which ends up in `TOK`. -/
theorem exec_parse_steps {s : State} (hlen : s.txtLen = 32) (htext : ∀ i : Fin 32, s.txt[i] ∈ modhexAlphabet) :
    ∃ t u v w, exec .mhDec s = .next t ∧ exec .aesDec t = .next u ∧ exec .crcCheck u = .next v ∧
      exec .tokUnpack v = .next w ∧
      v.valid = tokenValid (aesDecrypt s.key (blockOf (mhDecPairs s.txt.toList))) ∧
      w.tok = aesDecrypt s.key (blockOf (mhDecPairs s.txt.toList)) :=
  ⟨_, _, _, _, exec_mhDec_text hlen htext, exec_aesDec rfl, exec_crcCheck_block rfl, exec_tokUnpack rfl, rfl, rfl⟩

/-! ### The obligation -/

/-- Settles O58: each command of a sequence hands the next one its operands whole, and the composite command works on
the same block, which for `PARSE` the residue check accepts or refuses. -/
theorem compositeCommandsMatchTheirSteps : Obligations.CompositeCommandsMatchTheirSteps := by
  refine ⟨fun s => ?generate, fun s hlen htext => ?parse⟩
  case generate =>
    exact ⟨_, _, _, _, exec_tokPack s, exec_aesEnc rfl, exec_mhEnc_block rfl, exec_generate s, rfl, rfl, rfl, rfl, rfl, rfl⟩
  case parse =>
    obtain ⟨t, u, v, w, ht, hu, hv, hw, hvalid, htok⟩ := exec_parse_steps hlen htext
    have hp := exec_parse_of_encoding hlen (text_eq_modHexEncode_of_alphabet htext)
    rw [← hvalid, ← htok] at hp
    refine ⟨t, u, v, w, _, ht, hu, hv, hw, hp, ?_⟩
    cases v.valid with
    | true => exact ⟨fun _ => ⟨rfl, rfl⟩, nofun, rfl, rfl, rfl⟩
    | false => exact ⟨nofun, fun _ => ⟨rfl, rfl⟩, rfl, rfl, rfl⟩

end Sys2Proof.Machine
